-- ==== Sys2Proof/Word.lean ====
section
/-! DEFINITION. The word types of JM-PIPE5 (00_scope.md R7; 10_state.md R21, R39; 30_encoding.md R80). -/

namespace Sys2Proof

/-- A register, a data-memory word, an ALU result, a `pc`: XLEN = 32 bits.  An instruction word has
the same width, ILEN = 32 (R7). -/
abbrev Word := BitVec 32

/-- A 5-bit register index; every value names a register (R84). -/
abbrev RegIdx := BitVec 5

/-- The 16-bit immediate field of the I format (R7 IMMLEN, R82). -/
abbrev Imm := BitVec 16

/-- The cycle counter: CYCLE_WIDTH = 64 bits (R7, R39). -/
abbrev CycleCount := BitVec 64

end Sys2Proof
end

