-- ==== Sys2Proof/Config.lean ====
section
/-! DEFINITION. What is fixed for every machine of this kind (00_scope.md R7), and the values the model
names where the spec leaves a launch parameter OPEN (log entries 3 to 7). -/

namespace Sys2Proof.Config

/-- NREGS, the number of general registers (R7, R21). -/
def nregs : Nat := 32

/-- The largest N and the largest MEM_WORDS: `2 ^ XLEN` (R7). -/
def maxExtent : Nat := 2 ^ 32

/-- The word the assembler emits for a line it cannot assemble (R7, R97). -/
def illegalWord : Word := 0xFFFFFFFF#32

/-- DESIGN CHOICE (log entries 6 and 7, unsafe): what a data-memory word or a program word that nobody
loaded reads as.  The spec leaves INIT_MEM and PROGRAM open (R46, R7). -/
def unlistedWord : Word := 0#32

/-- DESIGN CHOICE (log entry 3, unsafe): INIT_REGS of the one launch behind `State.reset`. -/
def resetRegister : Word := 0#32

/-- DESIGN CHOICE (log entry 4, unsafe): MEM_WORDS of the one launch behind `State.reset`, the whole
data space that a 32-bit word index can name. -/
def resetMemWords : Nat := 2 ^ 32

end Sys2Proof.Config
end

