-- ==== Sys2Proof/Syntax.lean ====
section
/-! DEFINITION. The five instructions of JM5 (00_scope.md R2), one constructor per row of the opcode table.
The operands stand in the order of the assembly text (30_encoding.md R98); a displacement or offset is
the sign-extended XLEN-bit value that the decoded variant carries (10_state.md R36). -/

namespace Sys2Proof

/-- An instruction with its operands: the variant fields of a DecodedInstruction (10_state.md R36). -/
inductive Instr where
  /-- `add $rd, $rs, $rt` (41_arithmetic.md R161). -/
  | add (rd rs rt : RegIdx)
  /-- `sub $rd, $rs, $rt` (41_arithmetic.md R162). -/
  | sub (rd rs rt : RegIdx)
  /-- `beq $rs, $rt, off` (42_branch.md R170). -/
  | beq (rs rt : RegIdx) (off : Word)
  /-- `lw $rt, off($rs)` (43_load_store.md R180, R181). -/
  | lw (rt : RegIdx) (off : Word) (rs : RegIdx)
  /-- `sw $rt, off($rs)` (43_load_store.md R182, R183). -/
  | sw (rt : RegIdx) (off : Word) (rs : RegIdx)
  deriving DecidableEq, Repr

/-- The `op` field of AluResult and AluPass: ADD or SUB (10_state.md R37). -/
inductive AluOp where
  | add
  | sub
  deriving DecidableEq, Repr

end Sys2Proof
end

