-- ==== Sys2Proof/WellFormed.lean ====
section
/-! DEFINITION. Which instructions a machine word can carry: the offset of a BEQ, LW or SW is a signed
value in `[-32768, 32767]` (30_encoding.md R85).  Every 5-bit register index is in range (R84). -/

namespace Sys2Proof

/-- `off` is the sign extension of a 16-bit field: `-32768 <= sint(off) <= 32767` (R85). -/
def offsetInRange (off : Word) : Bool :=
  decide (-32768 ≤ off.toInt) && decide (off.toInt ≤ 32767)

/-- The check on an instruction, one arm per constructor. -/
def Instr.wellFormed : Instr → Bool
  | .add _ _ _ => true
  | .sub _ _ _ => true
  | .beq _ _ off => offsetInRange off
  | .lw _ off _ => offsetInRange off
  | .sw _ off _ => offsetInRange off

end Sys2Proof
end

