-- ==== Sys2Proof/Decode.lean ====
section
/-! DEFINITION. Decoding and encoding (30_encoding.md R80 to R94): the fields of a word, the decoder, the
source-register set the hazard comparator takes from an undecoded word, the encoder, the opcode map. -/

namespace Sys2Proof

/-! ## Fields (R81, R82, R84, R85) -/

def opcodeField (w : Word) : BitVec 6 := w.extractLsb' 26 6
def rsField (w : Word) : RegIdx := w.extractLsb' 21 5
def rtField (w : Word) : RegIdx := w.extractLsb' 16 5
def rdField (w : Word) : RegIdx := w.extractLsb' 11 5
def shamtField (w : Word) : BitVec 5 := w.extractLsb' 6 5
def functField (w : Word) : BitVec 6 := w.extractLsb' 0 6
def immField (w : Word) : Imm := w.extractLsb' 0 16

/-- `sext_32` of the 16-bit immediate (00_scope.md R8, R85). -/
def sext32 (imm : Imm) : Word := imm.signExtend 32

/-- `off = sext_32(w[15:0])` (R85). -/
def offField (w : Word) : Word := sext32 (immField w)

/-! ## Decoder (R86, R87) -/

/-- Why a word is illegal: the three cases of R87, by name. -/
inductive IllegalReason where
  | unknownOpcode (op : BitVec 6)
  | unknownFunct (funct : BitVec 6)
  | shamtNotZero (shamt : BitVec 5)
  deriving DecidableEq, Repr

/-- What `decode` answers: one of the five instructions, or Illegal (R86). -/
inductive DecodeResult where
  | legal (i : Instr)
  | illegal (why : IllegalReason)
  deriving DecidableEq, Repr

/-- `decode` of R86, total on every word.  The `pc` and `ctrl` that R86 adds to the payload are put
beside the instruction by the ID stage (Machine/Stages.lean, `idStage`). -/
def decode (w : Word) : DecodeResult :=
  if opcodeField w = 0x00#6 then
    if functField w = 0x20#6 then
      if shamtField w = 0#5 then .legal (.add (rdField w) (rsField w) (rtField w))
      else .illegal (.shamtNotZero (shamtField w))
    else if functField w = 0x22#6 then
      if shamtField w = 0#5 then .legal (.sub (rdField w) (rsField w) (rtField w))
      else .illegal (.shamtNotZero (shamtField w))
    else .illegal (.unknownFunct (functField w))
  else if opcodeField w = 0x04#6 then .legal (.beq (rsField w) (rtField w) (offField w))
  else if opcodeField w = 0x23#6 then .legal (.lw (rtField w) (offField w) (rsField w))
  else if opcodeField w = 0x2B#6 then .legal (.sw (rtField w) (offField w) (rsField w))
  else .illegal (.unknownOpcode (opcodeField w))

/-- The instruction of a word, `none` where it is illegal. -/
def decode? (w : Word) : Option Instr :=
  match decode w with
  | .legal i => some i
  | .illegal _ => none

/-! ## Source-register set (R92) -/

/-- The registers a decoded instruction reads.  For SW `rt` is a source, for LW it is not (R92). -/
def srcsOf : Instr → List RegIdx
  | .add _ rs rt => [rs, rt]
  | .sub _ rs rt => [rs, rt]
  | .beq rs rt _ => [rs, rt]
  | .lw _ _ rs => [rs]
  | .sw rt _ rs => [rs, rt]

/-- `srcs(w)`: the source registers of a word in IF/ID; an illegal word has none (R92). -/
def srcs (w : Word) : List RegIdx :=
  match decode w with
  | .legal i => srcsOf i
  | .illegal _ => []

/-! ## Encoder (R94) -/

/-- `off[15:0]` (R94). -/
def immOf (off : Word) : Imm := off.setWidth 16

/-- `enc` of R94: the fields of R81 and R82 put side by side, shamt always 0. -/
def encode : Instr → Word
  | .add rd rs rt => 0b000000#6 ++ rs ++ rt ++ rd ++ 0b00000#5 ++ 0b100000#6
  | .sub rd rs rt => 0b000000#6 ++ rs ++ rt ++ rd ++ 0b00000#5 ++ 0b100010#6
  | .beq rs rt off => 0b000100#6 ++ rs ++ rt ++ immOf off
  | .lw rt off rs => 0b100011#6 ++ rs ++ rt ++ immOf off
  | .sw rt off rs => 0b101011#6 ++ rs ++ rt ++ immOf off

/-! ## Opcode map (R83) -/

/-- The five rows of the opcode map as pairs (match, mask), in the order of R83. -/
def opcodeRows : List (Word × Word) :=
  [(0x00000020#32, 0xFC0007FF#32), (0x00000022#32, 0xFC0007FF#32), (0x10000000#32, 0xFC000000#32),
   (0x8C000000#32, 0xFC000000#32), (0xAC000000#32, 0xFC000000#32)]

/-- A word is in a row when `(w & mask) == match` (R83). -/
def inRow (w : Word) (row : Word × Word) : Bool := (w &&& row.2) == row.1

/-! ## The host's entry -/

/-- The instruction the decoder reads from the word whose bits are `w`, numbered as
`spec/opcode_table.json` numbers them.  Every instruction is one 32-bit word (R80), so `nbits` is 32
for every row; bits at or above `nbits` are 0. -/
def decodeTableWord (nbits w : Nat) : Option Instr :=
  if nbits ≤ 32 then decode? (BitVec.ofNat 32 (w % 2 ^ nbits)) else none

end Sys2Proof
end

