-- ==== Sys2Proof/Machine/State.lean ====
section
/-! DEFINITION. The state of the core (10_state.md R20 to R47), the two fatal errors (60_exceptions.md R200 to
R202), the reasons a step can stop, and the state after reset (R46). -/

namespace Sys2Proof.Machine

/-! ## Control signals (10_state.md R30) -/

/-- A control signal: 0, 1 or the don't-care `X`, which is distinct from both (R30, R33). -/
inductive Tri where
  | zero
  | one
  | dontCare
  deriving DecidableEq, Repr

/-- The control-signal vector (R30).  `aluOp` is `none` for `X`. -/
structure Ctrl where
  regDst : Tri
  aluSrc : Tri
  memtoReg : Tri
  regWrite : Tri
  memRead : Tri
  memWrite : Tri
  branch : Tri
  aluOp : Option (BitVec 2)
  deriving DecidableEq, Repr

/-! ## Latches (10_state.md R34 to R38) -/

/-- A latch: EMPTY (the bubble) or exactly one payload (R34). -/
inductive Latch (α : Type) where
  | empty
  | full (payload : α)
  deriving DecidableEq, Repr

/-- The IF/ID payload: a fetched word and the index it was fetched from (R35). -/
structure Fetched where
  word : Word
  pc : Word
  deriving DecidableEq, Repr

/-- The ID/EX payload, DecodedInstruction (R36). -/
structure Decoded where
  instr : Instr
  ctrl : Ctrl
  pc : Word
  deriving DecidableEq, Repr

/-- The variants of ExecutedResult (R37). -/
inductive ExResult where
  | aluResult (op : AluOp) (dest : RegIdx) (value : Word)
  | loadAddr (dest : RegIdx) (addr : Word)
  | storeAddr (addr : Word) (src : RegIdx) (data : Word)
  | branchOutcome (taken : Bool) (target : Word)
  deriving DecidableEq, Repr

/-- The EX/MEM payload, ExecutedResult, with `ctrl` and `pc` carried through (R37). -/
structure Executed where
  result : ExResult
  ctrl : Ctrl
  pc : Word
  deriving DecidableEq, Repr

/-- The variants of MemResult (R38).  `aluPass` carries `op` as R118, R161 and R162 write it. -/
inductive WbResult where
  | loaded (dest : RegIdx) (value : Word)
  | aluPass (op : AluOp) (dest : RegIdx) (value : Word)
  | noWriteBack
  deriving DecidableEq, Repr

/-- The MEM/WB payload, MemResult, with `ctrl` and `pc` carried through (R38). -/
structure MemDone where
  result : WbResult
  ctrl : Ctrl
  pc : Word
  deriving DecidableEq, Repr

/-! ## Run status (10_state.md R40) -/

/-- The two fatal errors with the information each records (60_exceptions.md R200 to R202, R204). -/
inductive FatalError where
  /-- An illegal word was decoded by ID (R200). -/
  | formatError (word pc : Word)
  /-- An LW or SW has `uint(addr) >= MEM_WORDS` (R202). -/
  | addressError (addr pc : Word)
  deriving DecidableEq, Repr

/-- The run status (R40).  `done` and `error` are absorbing until reset. -/
inductive Status where
  | running
  | done
  | error (e : FatalError)
  deriving DecidableEq, Repr

/-! ## Reasons to stop -/

/-- What broke the core's internal consistency (60_exceptions.md R206). -/
inductive Breach where
  /-- A forwarding match on an LW in EX/MEM (R129).  Raised by `forward`.  Safe: the machine stops
  where the spec proves no run comes. -/
  | forwardFromLoad
  /-- A decision read a control signal whose value is `X` (R33).  Raised by `Tri.asBool`.  Safe. -/
  | readDontCare
  /-- A stage wrote a latch that still holds a payload (R206).  Raised by `Latch.put`.  Safe. -/
  | latchOccupied
  /-- A payload's control signals contradict its variant: RegWrite = 1 without a destination, or
  MemRead and the LW variant disagree.  Raised by `forward` and `stallSignal`.  DESIGN CHOICE (log
  entry 9).  Safe: R88 rules it out in every run. -/
  | ctrlMismatch
  deriving DecidableEq, Repr

/-- Why the machine stops with a fault. -/
inductive Fault where
  /-- InternalInvariant, a model fault and never a hardware output (60_exceptions.md R206).  Raised by
  a stage of the cycle.  Safe. -/
  | internalInvariant (why : Breach)
  deriving DecidableEq, Repr

/-- Why an instruction has no meaning. -/
inductive Refusal where
  /-- An instruction of the opcode table that has no meaning yet: raised by nothing, since every arm of
  `exec` has its meaning.  Safe. -/
  | notModelled (mnemonic : String)
  deriving DecidableEq, Repr

/-! ## Memories and the register file -/

/-- A word of a memory at a word index or instruction index.  The spec forbids splitting a word into
bytes (20_memory.md R64; log entry 8). -/
abbrev WordCell := Nat × Word

/-- A memory: word cells with strictly rising addresses, none equal to what an unlisted address reads
as (`Memory.wf` in Machine/Ops.lean). -/
abbrev Memory := List WordCell

/-- The register file's 32 slots; slot 0 is never read (10_state.md R21, R22). -/
abbrev RegFile := Vector Word 32

/-! ## Launch parameters (00_scope.md R7, 10_state.md R47) -/

/-- What the host fixes for a run before it releases reset: PROGRAM, N, MEM_WORDS, INIT_REGS and
INIT_MEM (R7, R47; 70_reset_and_hazards.md R231). -/
structure Launch where
  prog : Memory
  progLen : Nat
  memWords : Nat
  initRegs : RegFile
  initMem : Memory
  deriving DecidableEq, Repr

/-- The launch behind `State.reset`: nothing loaded.  DESIGN CHOICE, log entries 3 to 7. -/
def Launch.unloaded : Launch where
  prog := []
  progLen := 0
  memWords := Config.resetMemWords
  initRegs := Vector.replicate 32 Config.resetRegister
  initMem := []

/-! ## The state -/

/-- The state of the core (10_state.md R20), the launch parameters the host fixed for the run (R47),
and the sampled reset pin (40_pipeline.md R150). -/
structure State where
  x : RegFile
  pc : Word
  ifid : Latch Fetched
  idex : Latch Decoded
  exmem : Latch Executed
  memwb : Latch MemDone
  dmem : Memory
  cycle : CycleCount
  status : Status
  launch : Launch
  rst : Bool
  deriving DecidableEq, Repr

/-- The machine right after reset (10_state.md R46), for the launch in which the host loaded nothing.
For every other launch the state after reset is `State.resetOf` (Machine/Ops.lean). -/
def State.reset : State where
  x := Launch.unloaded.initRegs
  pc := 0#32
  ifid := .empty
  idex := .empty
  exmem := .empty
  memwb := .empty
  dmem := []
  cycle := 0#64
  status := .running
  launch := Launch.unloaded
  rst := false

end Sys2Proof.Machine
end

