-- ==== Sys2Proof/Machine/Ops.lean ====
section
/-! DEFINITION. The named operations over registers, memories, latches and the run status: the register ports
(10_state.md R22, R23), MemRead and MemWrite (20_memory.md R62, R63), the fetch of a program word (R45),
a latch write, a fatal error (60_exceptions.md R203), and reset, the only way out of one (R210, R46). -/

namespace Sys2Proof.Machine

/-! ## Register file -/

/-- `x[i]`: register 0 reads 0, whatever its slot holds (R22). -/
def readReg (x : RegFile) (i : RegIdx) : Word :=
  if i = 0#5 then 0#32 else x[i.toNat]

/-- `WritePort(d, v)`: no effect when `d` is 0 (R23). -/
def writePort (x : RegFile) (d : RegIdx) (v : Word) : RegFile :=
  if d = 0#5 then x else x.set d.toNat v

/-! ## Memories in canonical form -/

/-- The word at an address; an unlisted address reads as `Config.unlistedWord` (log entries 6, 7). -/
def Memory.read : Memory → Nat → Word
  | [], _ => Config.unlistedWord
  | (b, w) :: m, a => if a = b then w else Memory.read m a

/-- Set the word at an address, keeping the canonical form: writing what an unlisted address reads as
removes the cell. -/
def Memory.write : Memory → Nat → Word → Memory
  | [], a, v => if v = Config.unlistedWord then [] else [(a, v)]
  | (b, w) :: m, a, v =>
    if a < b then
      if v = Config.unlistedWord then (b, w) :: m else (a, v) :: (b, w) :: m
    else if a = b then
      if v = Config.unlistedWord then m else (a, v) :: m
    else (b, w) :: Memory.write m a v

/-- Every address of `m` lies above `b`. -/
def Memory.above (b : Nat) (m : Memory) : Bool := m.all fun c => decide (b < c.1)

/-- The canonical form: addresses strictly rising, no cell equal to what an unlisted address reads as. -/
def Memory.wf : Memory → Bool
  | [] => true
  | (b, w) :: m => Memory.above b m && decide (w ≠ Config.unlistedWord) && Memory.wf m

/-- Every listed address lies below `extent`. -/
def Memory.within (m : Memory) (extent : Nat) : Bool := m.all fun c => decide (c.1 < extent)

/-- The part of a memory below `extent` (R46: `dmem[0..MEM_WORDS-1] = INIT_MEM[0..MEM_WORDS-1]`). -/
def Memory.restrict (m : Memory) (extent : Nat) : Memory := m.filter fun c => decide (c.1 < extent)

/-! ## Data-memory access (R62, R63, R67) -/

/-- `uint(a) < MEM_WORDS` (R62, R63). -/
def State.inExtent (s : State) (a : Word) : Bool := decide (a.toNat < s.launch.memWords)

/-- `MemRead(a)` of an in-range word index (R62). -/
def memRead (s : State) (a : Word) : Word := s.dmem.read a.toNat

/-- `MemWrite(a, v)` to an in-range word index: no other word changes (R63). -/
def memWrite (s : State) (a v : Word) : Memory := s.dmem.write a.toNat v

/-! ## Instruction space (R45, R60, R67) -/

/-- `uint(k) < N`: there is an instruction at index `k` (R67, R121). -/
def State.hasInstr (s : State) (k : Word) : Bool := decide (k.toNat < s.launch.progLen)

/-- `PROGRAM[uint(k)]` (R45). -/
def State.progWord (s : State) (k : Word) : Word := s.launch.prog.read k.toNat

/-- `s` with the word `w` loaded into PROGRAM at index `pc`, N reaching past it, the core RUNNING, and no
older instruction left in IF/ID, ID/EX or EX/MEM that could stall, redirect or abort its fetch.  It stands
for the host's load (40_pipeline.md R150, 70_reset_and_hazards.md R231; log entry 5). -/
def State.withProgramWord (s : State) (nbits w : Nat) : State :=
  { s with
    launch :=
      { s.launch with
        prog := s.launch.prog.write s.pc.toNat (BitVec.ofNat 32 (w % 2 ^ nbits))
        progLen := max s.launch.progLen (s.pc.toNat + 1) }
    ifid := .empty
    idex := .empty
    exmem := .empty
    status := .running
    rst := false }

/-! ## Latches -/

/-- Write a payload into a latch that its reader has emptied.  Writing one that still holds a payload
is InternalInvariant (R206; 93 I2). -/
def Latch.put {α : Type} (slot : Latch α) (payload : α) : Except Breach (Latch α) :=
  match slot with
  | .empty => .ok (.full payload)
  | .full _ => .error .latchOccupied

/-! ## Fatal errors: the core's only exceptional event (60_exceptions.md R200 to R205) -/

/-- Taking a fatal error in a cycle that began in `start` and has reached `now` (R203): the register
and memory writes of the stages already evaluated stay, the latches and `pc` keep their values from
the start of the cycle, `cycle` becomes `c`, and `status` becomes ERROR.  There is no handler and no
saved state (R209). -/
def abort (e : FatalError) (c : CycleCount) (start now : State) : State :=
  { start with x := now.x, dmem := now.dmem, cycle := c, status := .error e }

/-- How a stage of a cycle can stop it: a fatal error of the hardware, or a model fault. -/
inductive Stop where
  | fatal (e : FatalError)
  | breach (b : Breach)
  deriving DecidableEq, Repr

/-- Go on with `k` after a stage, or end the cycle as R203 or R206 says. -/
def afterStage (c : CycleCount) (start now : State) (r : Except Stop State)
    (k : State → Host.Outcome State Fault Refusal) : Host.Outcome State Fault Refusal :=
  match r with
  | .ok s => k s
  | .error (.fatal e) => .next (abort e c start now)
  | .error (.breach b) => .fault (.internalInvariant b)

/-! ## The MEM and WB parts of an instruction (40_pipeline.md R115, R116, R118) -/

/-- What MEM does with an ExecutedResult (R118, R181, R183): the data memory afterwards and the
MemResult, or AddressError, raised before anything is written. -/
def memAccess (s : State) (e : Executed) : Except FatalError (Memory × MemDone) :=
  match e.result with
  | .aluResult op dest value => .ok (s.dmem, ⟨.aluPass op dest value, e.ctrl, e.pc⟩)
  | .branchOutcome _ _ => .ok (s.dmem, ⟨.noWriteBack, e.ctrl, e.pc⟩)
  | .loadAddr dest addr =>
    if s.inExtent addr then .ok (s.dmem, ⟨.loaded dest (memRead s addr), e.ctrl, e.pc⟩)
    else .error (.addressError addr e.pc)
  | .storeAddr addr _ data =>
    if s.inExtent addr then .ok (memWrite s addr data, ⟨.noWriteBack, e.ctrl, e.pc⟩)
    else .error (.addressError addr e.pc)

/-- What WB does with a MemResult: the register file afterwards (R115, R116). -/
def writeBack (x : RegFile) (r : WbResult) : RegFile :=
  match r with
  | .loaded dest value => writePort x dest value
  | .aluPass _ dest value => writePort x dest value
  | .noWriteBack => x

/-- The MEM and WB parts of an ExecutedResult carried out in one go, with nothing else in flight; `next`
is the index of the instruction after it.  A fatal error leaves everything but the status as it was
(R181, R183, R203). -/
def finish (e : Executed) (next : Word) (s : State) : State :=
  match memAccess s e with
  | .ok (dmem, m) => { s with x := writeBack s.x m.result, dmem := dmem, pc := next }
  | .error err => abort err s.cycle s s

/-- One instruction on its own, as the interpreter `Seq` of R140 executes it: its MEM and WB parts after
its EX part gave `result`.  The instruction's own index is `s.pc`.  The latches and `cycle` are the
pipeline's and stay as they are (log entry 1). -/
def runAlone (ctrl : Ctrl) (result : ExResult) (next : Word) (s : State) :
    Host.Outcome State Fault Refusal :=
  .next (finish ⟨result, ctrl, s.pc⟩ next s)

/-! ## Reset (10_state.md R46; 70_reset_and_hazards.md R230) -/

/-- The state when `rst` is released, for the launch the host has loaded (R46, R230). -/
def State.resetOf (l : Launch) : State where
  x := l.initRegs
  pc := 0#32
  ifid := .empty
  idex := .empty
  exmem := .empty
  memwb := .empty
  dmem := l.initMem.restrict l.memWords
  cycle := 0#64
  status := .running
  launch := l
  rst := false

/-- What a launch must be (R7): both extents at most `2 ^ XLEN`, both memories in canonical form. -/
def Launch.wf (l : Launch) : Bool :=
  decide (l.progLen ≤ Config.maxExtent) && decide (l.memWords ≤ Config.maxExtent) &&
    Memory.wf l.prog && Memory.wf l.initMem

end Sys2Proof.Machine
end

