-- ==== Sys2Proof/Machine/Flags.lean ====
section
/-! DEFINITION. The core has no flags (10_state.md R29).  What other cores compute as flags are here control
signals and the comparison outcome of BEQ: the control-signal table (30_encoding.md R88), reading a
signal for a decision (10_state.md R33), the destination register (R36, R89), and `taken` (42_branch.md
R170). -/

namespace Sys2Proof.Machine

/-- `CTRL`, the control-signal table (R88). -/
def ctrlOf : Instr → Ctrl
  | .add _ _ _ => ⟨.one, .zero, .zero, .one, .zero, .zero, .zero, some 0b10#2⟩
  | .sub _ _ _ => ⟨.one, .zero, .zero, .one, .zero, .zero, .zero, some 0b11#2⟩
  | .lw _ _ _ => ⟨.zero, .one, .one, .one, .one, .zero, .zero, some 0b00#2⟩
  | .sw _ _ _ => ⟨.dontCare, .one, .dontCare, .zero, .zero, .one, .zero, some 0b00#2⟩
  | .beq _ _ _ => ⟨.dontCare, .zero, .dontCare, .zero, .zero, .zero, .one, some 0b01#2⟩

/-- Read a control signal for a decision; reading `X` is InternalInvariant (R33, R206). -/
def Tri.asBool : Tri → Except Breach Bool
  | .one => .ok true
  | .zero => .ok false
  | .dontCare => .error .readDontCare

/-- `dest(d)`, the destination register by variant (R36). -/
def destOf : Instr → Option RegIdx
  | .add rd _ _ => some rd
  | .sub rd _ _ => some rd
  | .beq _ _ _ => none
  | .lw rt _ _ => some rt
  | .sw _ _ _ => none

/-- The destination register as the control signals choose it from the `rd` and `rt` fields (R31, R89):
none when RegWrite = 0, where RegDst is not read. -/
def destByCtrl (c : Ctrl) (rd rt : RegIdx) : Except Breach (Option RegIdx) := do
  if ← c.regWrite.asBool then
    if ← c.regDst.asBool then return some rd else return some rt
  else return none

/-- `taken = (A == B)`, all 32 bits (R170).  The outcome lives only in the BEQ's EX/MEM payload (R29). -/
def branchTaken (a b : Word) : Bool := a == b

end Sys2Proof.Machine
end

