-- ==== Sys2Proof/Machine/Operands.lean ====
section
/-! DEFINITION. Operands: plain register reads, the forwarding unit (40_pipeline.md R125 to R129), the
effective address of a load or store (43_load_store.md R180) and the target of a branch (42_branch.md
R170, R172). -/

namespace Sys2Proof.Machine

/-- The setting of one forwarding multiplexer (R125). -/
inductive Selector where
  | useRegisterFile
  | forwardFromExMem
  | forwardFromMemWb
  deriving DecidableEq, Repr

/-- The value EX/MEM offers for source `r`, if it is a candidate (R126): RegWrite = 1, destination not 0
and equal to `r`.  A match on an LW is InternalInvariant, and the address is never forwarded (R129). -/
def forwardExMem (l : Latch Executed) (r : RegIdx) : Except Breach (Option Word) :=
  match l with
  | .empty => .ok none
  | .full e => do
    if ← e.ctrl.regWrite.asBool then
      match e.result with
      | .aluResult _ dest value => if dest ≠ 0#5 ∧ dest = r then .ok (some value) else .ok none
      | .loadAddr dest _ => if dest ≠ 0#5 ∧ dest = r then .error .forwardFromLoad else .ok none
      | .storeAddr _ _ _ => .error .ctrlMismatch
      | .branchOutcome _ _ => .error .ctrlMismatch
    else .ok none

/-- The value MEM/WB offers for source `r`, if it is a candidate (R126). -/
def forwardMemWb (l : Latch MemDone) (r : RegIdx) : Except Breach (Option Word) :=
  match l with
  | .empty => .ok none
  | .full m => do
    if ← m.ctrl.regWrite.asBool then
      match m.result with
      | .loaded dest value => if dest ≠ 0#5 ∧ dest = r then .ok (some value) else .ok none
      | .aluPass _ dest value => if dest ≠ 0#5 ∧ dest = r then .ok (some value) else .ok none
      | .noWriteBack => .error .ctrlMismatch
    else .ok none

/-- The multiplexer of one EX operand (R126): its selector and its value.  EX/MEM outranks MEM/WB, and
MEM/WB outranks the register file `x`, which is read after this cycle's write-back (10_state.md R25).
The latches are those of `start`, the state at the start of the cycle (R125). -/
def forward (start : State) (x : RegFile) (r : RegIdx) : Except Breach (Selector × Word) := do
  match ← forwardExMem start.exmem r with
  | some v => return (.forwardFromExMem, v)
  | none =>
    match ← forwardMemWb start.memwb r with
    | some v => return (.forwardFromMemWb, v)
    | none => return (.useRegisterFile, readReg x r)

/-- `fwd(r)`: the value of the multiplexer (R126). -/
def fwd (start : State) (x : RegFile) (r : RegIdx) : Except Breach Word := do
  return (← forward start x r).2

/-- The register of operand A, every instruction's `rs` (R117). -/
def srcA : Instr → RegIdx
  | .add _ rs _ => rs
  | .sub _ rs _ => rs
  | .beq rs _ _ => rs
  | .lw _ _ rs => rs
  | .sw _ _ rs => rs

/-- The register of operand B, `rt`.  LW reads no operand B (R117, R128). -/
def srcB : Instr → Option RegIdx
  | .add _ _ rt => some rt
  | .sub _ _ rt => some rt
  | .beq _ rt _ => some rt
  | .lw _ _ _ => none
  | .sw rt _ _ => some rt

/-- `addr = (A + off) mod 2^XLEN`, a word index, not scaled (43_load_store.md R180, R182). -/
def effAddr (base off : Word) : Word := base + off

/-- `target = (pc + off) mod 2^XLEN`, with the branch's own instruction index (42_branch.md R170, R172). -/
def branchTarget (pc off : Word) : Word := pc + off

end Sys2Proof.Machine
end

