-- ==== Sys2Proof/Machine/Arithmetic.lean ====
section
/-! DEFINITION. ADD and SUB (41_arithmetic.md R160 to R162).  `exAdd` and `exSub` are the EX parts, which the
pipeline's EX stage calls with forwarded operands; `execAdd` and `execSub` are the whole instructions,
with plain register reads (40_pipeline.md R140). -/

namespace Sys2Proof.Machine

/-- The EX part of ADD: the sum modulo `2^32` (R160, R161). -/
def exAdd (rd : RegIdx) (a b : Word) : ExResult := .aluResult .add rd (a + b)

/-- The EX part of SUB: `rs` minus `rt`, modulo `2^32` (R160, R162). -/
def exSub (rd : RegIdx) (a b : Word) : ExResult := .aluResult .sub rd (a - b)

/-- ADD (R161). -/
def execAdd (rd rs rt : RegIdx) (s : State) : Host.Outcome State Fault Refusal :=
  runAlone (ctrlOf (.add rd rs rt)) (exAdd rd (readReg s.x rs) (readReg s.x rt)) (s.pc + 1#32) s

/-- SUB (R162). -/
def execSub (rd rs rt : RegIdx) (s : State) : Host.Outcome State Fault Refusal :=
  runAlone (ctrlOf (.sub rd rs rt)) (exSub rd (readReg s.x rs) (readReg s.x rt)) (s.pc + 1#32) s

end Sys2Proof.Machine
end

