-- ==== Sys2Proof/Machine/Branch.lean ====
section
/-! DEFINITION. BEQ (42_branch.md R170 to R173): the EX part and the whole instruction. -/

namespace Sys2Proof.Machine

/-- The EX part of BEQ at instruction index `pc` (R170). -/
def exBeq (off a b pc : Word) : ExResult := .branchOutcome (branchTaken a b) (branchTarget pc off)

/-- BEQ: the next instruction is the target when taken (R172) and the following index otherwise
(R171). -/
def execBeq (rs rt : RegIdx) (off : Word) (s : State) : Host.Outcome State Fault Refusal :=
  runAlone (ctrlOf (.beq rs rt off)) (exBeq off (readReg s.x rs) (readReg s.x rt) s.pc)
    (if branchTaken (readReg s.x rs) (readReg s.x rt) then branchTarget s.pc off else s.pc + 1#32) s

end Sys2Proof.Machine
end

