-- ==== Sys2Proof/Machine/LoadStore.lean ====
section
/-! DEFINITION. LW and SW (43_load_store.md R180 to R184): the EX parts and the whole instructions.  The MEM
and WB parts are `memAccess` and `writeBack` (Machine/Ops.lean). -/

namespace Sys2Proof.Machine

/-- The EX part of LW (R180). -/
def exLw (rt : RegIdx) (off a : Word) : ExResult := .loadAddr rt (effAddr a off)

/-- The EX part of SW: the store value is operand B (R182). -/
def exSw (rt : RegIdx) (off a b : Word) : ExResult := .storeAddr (effAddr a off) rt b

/-- LW (R180, R181). -/
def execLw (rt : RegIdx) (off : Word) (rs : RegIdx) (s : State) : Host.Outcome State Fault Refusal :=
  runAlone (ctrlOf (.lw rt off rs)) (exLw rt off (readReg s.x rs)) (s.pc + 1#32) s

/-- SW (R182, R183). -/
def execSw (rt : RegIdx) (off : Word) (rs : RegIdx) (s : State) : Host.Outcome State Fault Refusal :=
  runAlone (ctrlOf (.sw rt off rs)) (exSw rt off (readReg s.x rs) (readReg s.x rt)) (s.pc + 1#32) s

end Sys2Proof.Machine
end

