-- ==== Sys2Proof/Machine/Stages.lean ====
section
/-! DEFINITION. The five stages and the two control units (40_pipeline.md R115 to R139).  Each stage reads the
latches of `start`, the state at the start of the cycle, and takes `now`, the cycle so far, to its own
result: it empties the latch it consumes and fills the latch it writes (R111, R113).  The register and
memory writes of WB and MEM are seen by the stages after them (R111). -/

namespace Sys2Proof.Machine

/-- WB (R115, R116): the only stage that writes a register.  The instruction in MEM/WB retires. -/
def wbStage (start : State) : State :=
  match start.memwb with
  | .empty => start
  | .full m => { start with x := writeBack start.x m.result, memwb := .empty }

/-- MEM (R118, R119): the only stage that touches data memory. -/
def memStage (start now : State) : Except Stop State :=
  match start.exmem with
  | .empty => .ok now
  | .full e =>
    match memAccess now e with
    | .error err => .error (.fatal err)
    | .ok (dmem, m) =>
      match now.memwb.put m with
      | .error b => .error (.breach b)
      | .ok l => .ok { now with dmem := dmem, exmem := .empty, memwb := l }

/-- The per-opcode result of EX, with operands through the forwarding unit (R117, R127, R128). -/
def exResult (start : State) (x : RegFile) (d : Decoded) : Except Breach ExResult :=
  match d.instr with
  | .add rd rs rt => do return exAdd rd (← fwd start x rs) (← fwd start x rt)
  | .sub rd rs rt => do return exSub rd (← fwd start x rs) (← fwd start x rt)
  | .beq rs rt off => do return exBeq off (← fwd start x rs) (← fwd start x rt) d.pc
  | .lw rt off rs => do return exLw rt off (← fwd start x rs)
  | .sw rt off rs => do return exSw rt off (← fwd start x rs) (← fwd start x rt)

/-- EX (R117): `ctrl` and `pc` are carried through unchanged. -/
def exStage (start now : State) : Except Stop State :=
  match start.idex with
  | .empty => .ok now
  | .full d =>
    match exResult start now.x d with
    | .error b => .error (.breach b)
    | .ok r =>
      match now.exmem.put ⟨r, d.ctrl, d.pc⟩ with
      | .error b => .error (.breach b)
      | .ok l => .ok { now with idex := .empty, exmem := l }

/-- The redirect EX drives in the cycle it fills EX/MEM: the target of a taken BEQ (R117, R135). -/
def redirectOf (exmem : Latch Executed) : Option Word :=
  match exmem with
  | .full ⟨.branchOutcome true target, _, _⟩ => some target
  | _ => none

/-- The hazard comparator (R130, R133, R134): ID/EX is an LW, that is MemRead = 1, and the word in IF/ID
reads its `rt`, register 0 included. -/
def stallSignal (start : State) : Except Breach Bool :=
  match start.idex, start.ifid with
  | .full d, .full f => do
    match ← d.ctrl.memRead.asBool, d.instr with
    | true, .lw rt _ _ => return decide (rt ∈ srcs f.word)
    | true, _ => .error .ctrlMismatch
    | false, .lw _ _ _ => .error .ctrlMismatch
    | false, _ => return false
  | _, _ => .ok false

/-- ID (R120), in its priority order: squash (R136), bubble (R131), nothing to decode, decode.  An
illegal word is a FormatError (60_exceptions.md R200). -/
def idStage (start now : State) (stall : Bool) : Except Stop State :=
  match redirectOf now.exmem with
  | some _ => .ok { now with ifid := .empty }
  | none =>
    if stall then .ok now
    else
      match start.ifid with
      | .empty => .ok now
      | .full f =>
        match decode f.word with
        | .illegal _ => .error (.fatal (.formatError f.word f.pc))
        | .legal i =>
          match now.idex.put ⟨i, ctrlOf i, f.pc⟩ with
          | .error b => .error (.breach b)
          | .ok l => .ok { now with ifid := .empty, idex := l }

/-- IF (R121, R131, R137): held during a stall; else it fetches at the redirect, or at `pc`, and past the
end of the program it fetches nothing. -/
def ifStage (start now : State) (stall : Bool) : Except Stop State :=
  if stall then .ok { now with ifid := start.ifid, pc := start.pc }
  else
    let f := (redirectOf now.exmem).getD start.pc
    if start.hasInstr f then
      match now.ifid.put ⟨start.progWord f, f⟩ with
      | .error b => .error (.breach b)
      | .ok l => .ok { now with ifid := l, pc := f + 1#32 }
    else .ok { now with ifid := .empty, pc := f }

end Sys2Proof.Machine
end

