-- ==== Sys2Proof/Machine/Cycle.lean ====
section
/-! DEFINITION. The clock cycle (40_pipeline.md R110 to R114). -/

namespace Sys2Proof.Machine

/-- All four latches EMPTY and no instruction at `pc`: the run is complete (R112). -/
def completes (s : State) : Bool :=
  s.ifid == .empty && s.idex == .empty && s.exmem == .empty && s.memwb == .empty && !s.hasInstr s.pc

/-- The working part of the cycle, WB, MEM, EX, hazard check and ID, IF, and the commit (R113, R114). -/
def runStages (s : State) : Host.Outcome State Fault Refusal :=
  let c := s.cycle + 1#64
  let w := wbStage s
  afterStage c s w (memStage s w) fun m =>
  afterStage c s m (exStage s m) fun e =>
  match stallSignal s with
  | .error b => .fault (.internalInvariant b)
  | .ok stall =>
    afterStage c s e (idStage s e stall) fun d =>
    afterStage c s d (ifStage s d stall) fun f =>
    .next { f with cycle := c }

/-- One rising clock edge with the reset pin as it was sampled: no cycle runs while `rst = 1` (R230), and
DONE and ERROR are absorbing (R40, R110). -/
def clockEdge (s : State) : Host.Outcome State Fault Refusal :=
  if s.rst then .next s
  else
    match s.status with
    | .done => .next s
    | .error _ => .next s
    | .running => if completes s then .next { s with status := .done } else runStages s

end Sys2Proof.Machine
end

