-- ==== Sys2Proof/Machine/Dispatch.lean ====
section
/-! DEFINITION. The whole effect of each instruction, one instruction at a time: what the interpreter `Seq` of
40_pipeline.md R140 executes, "by the operations of 41_arithmetic.md, 42_branch.md and 43_load_store.md
with plain register reads". -/

namespace Sys2Proof.Machine

def exec (i : Instr) (s : State) : Host.Outcome State Fault Refusal :=
  match i with
  | .add rd rs rt => Sys2Proof.Machine.execAdd rd rs rt s
  | .sub rd rs rt => Sys2Proof.Machine.execSub rd rs rt s
  | .beq rs rt off => Sys2Proof.Machine.execBeq rs rt off s
  | .lw rt off rs => Sys2Proof.Machine.execLw rt off rs s
  | .sw rt off rs => Sys2Proof.Machine.execSw rt off rs s

end Sys2Proof.Machine
end

