-- ==== Sys2Proof/Machine/Step.lean ====
section
/-! DEFINITION. One step of the machine is one clock cycle (40_pipeline.md R110), and the state in which the
next step runs a given word. -/

namespace Sys2Proof.Machine

/-- One rising clock edge (R110). -/
def step (s : State) : Host.Outcome State Fault Refusal := clockEdge s

/-- `s` with the word `w` loaded into PROGRAM at index `pc` and fetched: the fetch cycle of the word, one step
of this machine, is done (cycle 1 of the run, from `State.reset`), so that IF/ID holds the word and nothing
older is in flight.  The very next step runs the instruction: ID decodes it, and what the pipeline stands
for goes on by exactly `exec` of it (40_pipeline.md R140); an illegal word is a FormatError in that step.
Its EX, MEM and WB are the three cycles after (70_reset_and_hazards.md R235).  DESIGN CHOICE, log entry 5. -/
def State.withFetchWord (s : State) (nbits w : Nat) : State :=
  match step (s.withProgramWord nbits w) with
  | .next t => t
  | .fault _ => s.withProgramWord nbits w
  | .refused _ => s.withProgramWord nbits w

end Sys2Proof.Machine
end

