-- ==== Sys2Proof/Machine/Assembler.lean ====
section
/-! DEFINITION. Assembly text (30_encoding.md R95 to R99): the grammar, the assembler, the disassembler.  A
line is a list of characters. -/

namespace Sys2Proof.Machine.Asm

/-- A space or a tab (R96). -/
def isBlank (c : Char) : Bool := c == ' ' || c == '\t'

/-- A decimal digit (R96). -/
def isDigit (c : Char) : Bool := decide (48 ≤ c.toNat) && decide (c.toNat ≤ 57)

/-- The value of a run of decimal digits. -/
def natOf (ds : List Char) : Nat := ds.foldl (fun n c => 10 * n + (c.toNat - 48)) 0

/-- `WS ::= (" " | "\t")+` (R96). -/
def skipBlank1 : List Char → Option (List Char)
  | c :: cs => if isBlank c then some (cs.dropWhile isBlank) else none
  | [] => none

/-- One given character. -/
def expect (c : Char) : List Char → Option (List Char)
  | d :: cs => if d == c then some cs else none
  | [] => none

/-- `SEP ::= (" " | "\t")* "," (" " | "\t")*` (R96). -/
def sep (cs : List Char) : Option (List Char) :=
  match expect ',' (cs.dropWhile isBlank) with
  | some rest => some (rest.dropWhile isBlank)
  | none => none

/-- `DIGIT+`: its value and the rest (R96). -/
def number (cs : List Char) : Option (Nat × List Char) :=
  match cs.takeWhile isDigit with
  | [] => none
  | d :: ds => some (natOf (d :: ds), cs.dropWhile isDigit)

/-- `reg ::= "$" DIGIT+`, value 0 to 31 (R96, R97). -/
def reg (cs : List Char) : Option (RegIdx × List Char) := do
  let (n, rest) ← number (← expect '$' cs)
  if n ≤ 31 then return (BitVec.ofNat 5 n, rest) else none

/-- An offset value in `[-32768, 32767]` as an XLEN-bit word (R96, R97). -/
def offsetOf (v : Int) : Option Word :=
  if -32768 ≤ v ∧ v ≤ 32767 then some (BitVec.ofInt 32 v) else none

/-- `offset ::= ("+" | "-")? DIGIT+` (R96). -/
def offset (cs : List Char) : Option (Word × List Char) :=
  match cs with
  | '+' :: rest => do let (n, r) ← number rest; return (← offsetOf n, r)
  | '-' :: rest => do let (n, r) ← number rest; return (← offsetOf (-(n : Int)), r)
  | _ => do let (n, r) ← number cs; return (← offsetOf n, r)

/-- The end of the line. -/
def atEnd : List Char → Option Unit
  | [] => some ()
  | _ :: _ => none

/-- `reg SEP reg SEP reg` (R96). -/
def threeRegs (cs : List Char) : Option (RegIdx × RegIdx × RegIdx) := do
  let (a, cs) ← reg cs
  let (b, cs) ← reg (← sep cs)
  let (c, cs) ← reg (← sep cs)
  atEnd cs
  return (a, b, c)

/-- `reg SEP reg SEP offset` (R96). -/
def twoRegsOffset (cs : List Char) : Option (RegIdx × RegIdx × Word) := do
  let (a, cs) ← reg cs
  let (b, cs) ← reg (← sep cs)
  let (o, cs) ← offset (← sep cs)
  atEnd cs
  return (a, b, o)

/-- `reg SEP offset "(" reg ")"` (R96). -/
def regOffsetBase (cs : List Char) : Option (RegIdx × Word × RegIdx) := do
  let (a, cs) ← reg cs
  let (o, cs) ← offset (← sep cs)
  let (b, cs) ← reg (← expect '(' cs)
  atEnd (← expect ')' cs)
  return (a, o, b)

/-- `line ::= r3 | br | mem` (R95, R96); the operands go to their fields as R98 says.  Mnemonics are
lower case (R96); there are no pseudo-instructions (R99). -/
def parseLine (cs : List Char) : Option Instr :=
  match cs with
  | 'a' :: 'd' :: 'd' :: rest => do
    let (rd, rs, rt) ← threeRegs (← skipBlank1 rest)
    return .add rd rs rt
  | 's' :: 'u' :: 'b' :: rest => do
    let (rd, rs, rt) ← threeRegs (← skipBlank1 rest)
    return .sub rd rs rt
  | 'b' :: 'e' :: 'q' :: rest => do
    let (rs, rt, off) ← twoRegsOffset (← skipBlank1 rest)
    return .beq rs rt off
  | 'l' :: 'w' :: rest => do
    let (rt, off, rs) ← regOffsetBase (← skipBlank1 rest)
    return .lw rt off rs
  | 's' :: 'w' :: rest => do
    let (rt, off, rs) ← regOffsetBase (← skipBlank1 rest)
    return .sw rt off rs
  | _ => none

/-- The word of a line: its encoding (R94), or `ILLEGAL_WORD` when the line is malformed (R97). -/
def assembleLine (cs : List Char) : Word :=
  match parseLine cs with
  | some i => encode i
  | none => Config.illegalWord

/-- The white space that trimming takes off a line: space, tab, line feed, vertical tab, form feed and
carriage return.  DESIGN CHOICE, log entry 13: R95 says "whitespace-trimmed" and lists no characters. -/
def isSpace (c : Char) : Bool := c == ' ' || (decide (9 ≤ c.toNat) && decide (c.toNat ≤ 13))

/-- A line without the white space at its two ends (R95). -/
def trimLine (cs : List Char) : List Char :=
  ((cs.dropWhile isSpace).reverse.dropWhile isSpace).reverse

/-- The words of a program: line `k`, counted from 0, is instruction index `k`; each line is trimmed
first (R95). -/
def assemble (lines : List (List Char)) : List Word := lines.map fun cs => assembleLine (trimLine cs)

/-- A program placed in the instruction space from index `k` on (R95, R45). -/
def placeFrom (m : Memory) : Nat → List Word → Memory
  | _, [] => m
  | k, w :: ws => placeFrom (m.write k w) (k + 1) ws

/-- A launch with the assembled program loaded (R95, R231). -/
def loadProgram (l : Launch) (lines : List (List Char)) : Launch :=
  { l with prog := placeFrom [] 0 (assemble lines), progLen := lines.length }

/-! ## Disassembler (R98) -/

/-- The decimal digits of a number, least significant first, by fuel. -/
def digitsRev : Nat → Nat → List Char
  | 0, _ => []
  | fuel + 1, n =>
    Char.ofNat (48 + n % 10) :: (if n < 10 then [] else digitsRev fuel (n / 10))

/-- A number in decimal. -/
def showNat (n : Nat) : List Char := (digitsRev 11 n).reverse

/-- `$N`. -/
def showReg (r : RegIdx) : List Char := '$' :: showNat r.toNat

/-- `off` in signed decimal (R98). -/
def showOffset (off : Word) : List Char :=
  if off.toInt < 0 then '-' :: showNat off.toInt.natAbs else showNat off.toInt.toNat

/-- The separator of the canonical form. -/
def comma : List Char := [',', ' ']

/-- The canonical text of an instruction (R98). -/
def disassemble : Instr → List Char
  | .add rd rs rt =>
    ['a', 'd', 'd', ' '] ++ showReg rd ++ comma ++ showReg rs ++ comma ++ showReg rt
  | .sub rd rs rt =>
    ['s', 'u', 'b', ' '] ++ showReg rd ++ comma ++ showReg rs ++ comma ++ showReg rt
  | .beq rs rt off =>
    ['b', 'e', 'q', ' '] ++ showReg rs ++ comma ++ showReg rt ++ comma ++ showOffset off
  | .lw rt off rs =>
    ['l', 'w', ' '] ++ showReg rt ++ comma ++ showOffset off ++ ['('] ++ showReg rs ++ [')']
  | .sw rt off rs =>
    ['s', 'w', ' '] ++ showReg rt ++ comma ++ showOffset off ++ ['('] ++ showReg rs ++ [')']

end Sys2Proof.Machine.Asm
end

