-- ==== Sys2Proof/Machine/HostPort.lean ====
section
/-! DEFINITION. The ports of the block and what the host reads through them (40_pipeline.md R150 to R153,
60_exceptions.md R201, R204; 70_reset_and_hazards.md R230, R231). -/

namespace Sys2Proof.Machine

/-! ## Inputs (R150) -/

/-- The input ports sampled at one rising clock edge (R150). -/
structure PortIn where
  rst : Bool
  progLen : BitVec 33
  progWe : Bool
  progAddr : Word
  progWdata : Word
  memWords : BitVec 33
  hmWe : Bool
  hmAddr : Word
  hmWdata : Word
  hrWe : Bool
  hrAddr : RegIdx
  hrWdata : Word
  deriving DecidableEq, Repr

/-- A sampled length: a value above `2 ^ XLEN` is outside the parameter's range (R7) and is ignored.
DESIGN CHOICE, log entry 12. -/
def sampleExtent (old : Nat) (v : BitVec 33) : Nat :=
  if v.toNat ≤ Config.maxExtent then v.toNat else old

/-- The loads of one clock edge with `rst = 1` (R150, R231): `prog_len` and `mem_words` are sampled, and
each write port writes where its write-enable is set.  A write to register 0 is ignored (R150). -/
def Launch.load (l : Launch) (p : PortIn) : Launch where
  prog := if p.progWe then l.prog.write p.progAddr.toNat p.progWdata else l.prog
  progLen := sampleExtent l.progLen p.progLen
  memWords := sampleExtent l.memWords p.memWords
  initRegs := if p.hrWe then writePort l.initRegs p.hrAddr p.hrWdata else l.initRegs
  initMem := if p.hmWe then l.initMem.write p.hmAddr.toNat p.hmWdata else l.initMem

/-- One rising clock edge with its inputs.  While `rst` is 1 no cycle runs and loads are accepted; at its
falling edge the state takes its reset values (R150, R230, R46); while it is 0 the load ports are
ignored (R153) and the edge is one cycle (R110). -/
def portEdge (p : PortIn) (s : State) : Host.Outcome State Fault Refusal :=
  if p.rst then .next { s with rst := true, launch := s.launch.load p }
  else if s.rst then .next (State.resetOf s.launch)
  else step s

/-! ## Outputs (R150, R201, R204) -/

/-- `done`. -/
def doneOut (s : State) : Bool := s.status == .done

/-- `error`. -/
def errorOut (s : State) : Bool :=
  match s.status with
  | .error _ => true
  | .running => false
  | .done => false

/-- `err_kind` (R201): 0 none, 1 FormatError, 2 AddressError; 3 is never output. -/
def errKind (s : State) : BitVec 2 :=
  match s.status with
  | .error (.formatError _ _) => 1#2
  | .error (.addressError _ _) => 2#2
  | .running => 0#2
  | .done => 0#2

/-- `err_pc`: the index of the offending instruction; none without an error (R201, R204). -/
def errPc (s : State) : Option Word :=
  match s.status with
  | .error (.formatError _ pc) => some pc
  | .error (.addressError _ pc) => some pc
  | .running => none
  | .done => none

/-- `err_word`: the illegal word of a FormatError (R201, R204). -/
def errWord (s : State) : Option Word :=
  match s.status with
  | .error (.formatError w _) => some w
  | .error (.addressError _ _) => none
  | .running => none
  | .done => none

/-- `err_addr`: the effective address of an AddressError (R201, R204). -/
def errAddr (s : State) : Option Word :=
  match s.status with
  | .error (.formatError _ _) => none
  | .error (.addressError a _) => some a
  | .running => none
  | .done => none

/-- `cycle_count`. -/
def cycleCount (s : State) : CycleCount := s.cycle

/-- The host's reads are valid while `rst = 1` or the core is not RUNNING (R150). -/
def hostReadValid (s : State) : Bool := s.rst || !(s.status == .running)

/-- `hm_rdata` (R150): none while a read is not valid or the index lies outside the extent.  While
`rst = 1` it shows what the host has loaded.  DESIGN CHOICE, log entry 11. -/
def hmRdata (s : State) (addr : Word) : Option Word :=
  if hostReadValid s && s.inExtent addr then
    some (if s.rst then s.launch.initMem.read addr.toNat else s.dmem.read addr.toNat)
  else none

/-- `hr_rdata` (R150): a read of register 0 gives 0.  Valid as `hm_rdata` is. -/
def hrRdata (s : State) (addr : RegIdx) : Option Word :=
  if hostReadValid s then
    some (if s.rst then readReg s.launch.initRegs addr else readReg s.x addr)
  else none

/-! ## Snapshot, final results, error report (R151, R152, R204) -/

/-- The per-cycle snapshot: the cycle number and the four latches with their fields and control signals
(R151). -/
structure Snapshot where
  cycle : CycleCount
  ifid : Latch Fetched
  idex : Latch Decoded
  exmem : Latch Executed
  memwb : Latch MemDone
  deriving DecidableEq, Repr

/-- The snapshot presented after an edge from `before` to `after`: only after a cycle that ran and ended in
RUNNING; the completion cycle and a cycle that raised an error present none (R151).  DESIGN CHOICE, log
entry 20: an edge on which no cycle ran presents none either, where R151 and R217 are silent.  That is an
edge that samples `rst = 1`, the one that asserts it in a running core included (`after.rst`), the edge that
releases it (`before.rst`), and an edge in DONE or ERROR. -/
def snapshotAfter (before after : State) : Option Snapshot :=
  if !before.rst && !after.rst && before.status == .running && after.status == .running then
    some ⟨after.cycle, after.ifid, after.idex, after.exmem, after.memwb⟩
  else none

/-- The final results (R152): 32 registers with `x[0] = 0`, the memory over its declared extent, the
total cycle count. -/
structure FinalResults where
  regs : List Word
  memWords : Nat
  dmem : Memory
  cycles : CycleCount
  deriving DecidableEq, Repr

/-- The final results are presented when `status = DONE` (R152). -/
def finalResults (s : State) : Option FinalResults :=
  if s.status == .done then
    some ⟨(List.range Config.nregs).map fun i => readReg s.x (BitVec.ofNat 5 i), s.launch.memWords,
      s.dmem, s.cycle⟩
  else none

/-- The error report (R204): the error with its instruction index and its word or address, and the
cycle in which it was raised. -/
structure ErrorReport where
  error : FatalError
  cycle : CycleCount
  deriving DecidableEq, Repr

/-- The error report is presented on ERROR (R204). -/
def errorReport (s : State) : Option ErrorReport :=
  match s.status with
  | .error e => some ⟨e, s.cycle⟩
  | .running => none
  | .done => none

end Sys2Proof.Machine
end

