-- ==== Sys2Proof/Machine/Seq.lean ====
section
/-! DEFINITION. The one-instruction-at-a-time interpreter `Seq` (40_pipeline.md R140), what a state of the
pipeline stands for in it, and the counts E, S and T of a run (70_reset_and_hazards.md R236). -/

namespace Sys2Proof.Machine

/-- One step of `Seq` (R140): while `k < N` (here `k` is `pc`) execute `PROGRAM[k]`; stop at the end of
the program, and stop at the first FormatError or AddressError. -/
def seqStep (s : State) : Host.Outcome State Fault Refusal :=
  match s.status with
  | .done => .next s
  | .error _ => .next s
  | .running =>
    if s.hasInstr s.pc then
      match decode (s.progWord s.pc) with
      | .legal i => exec i s
      | .illegal _ => .next (abort (.formatError (s.progWord s.pc) s.pc) s.cycle s s)
    else .next { s with status := .done }

/-- `n` steps of `Seq`. -/
def seqRun : Nat → State → Host.Outcome State Fault Refusal
  | 0, s => .next s
  | n + 1, s =>
    match seqStep s with
    | .next t => seqRun n t
    | .fault r => .fault r
    | .refused r => .refused r

/-- The index of the oldest instruction that has not reached ID/EX. -/
def State.frontIndex (s : State) : Word :=
  match s.ifid with
  | .full f => f.pc
  | .empty => s.pc

/-- `s` with its latches emptied, its `pc` at index `pc` and `cycle`, which `Seq` does not have, at 0. -/
def State.cleared (s : State) (pc : Word) : State :=
  { s with pc := pc, ifid := .empty, idex := .empty, exmem := .empty, memwb := .empty, cycle := 0#64 }

/-- The instructions in MEM/WB and EX/MEM, in that order, carried to their end. -/
def State.afterMem (s : State) : State :=
  match s.exmem with
  | .empty => (wbStage s).cleared s.frontIndex
  | .full e => finish e s.frontIndex ((wbStage s).cleared e.pc)

/-- Instruction `i` at index `pc` on its own, if the run is still RUNNING. -/
def runAt (i : Instr) (pc : Word) (s : State) : State :=
  match s.status with
  | .done => s
  | .error _ => s
  | .running =>
    match exec i { s with pc := pc } with
    | .next t => t
    | .fault _ => s
    | .refused _ => s

/-- What a running pipeline state stands for in `Seq`: the instructions in MEM/WB, EX/MEM and ID/EX, in
that order, are carried to their end; the one in IF/ID has not begun. -/
def State.archView (s : State) : State :=
  match s.idex with
  | .empty => s.afterMem
  | .full d => runAt d.instr d.pc s.afterMem

/-- The counts of R236 over a run of `Seq`: E executed instructions, S executed pairs (LW, next) where
the LW's `rt` is a source of the next, T taken BEQs with a target inside the program. -/
structure Tally where
  executed : Nat
  loadUse : Nat
  taken : Nat
  last : Option Instr
  deriving DecidableEq, Repr

def Tally.start : Tally := ⟨0, 0, 0, none⟩

/-- The pair (previous executed instruction, this one) is a load-use pair (R236). -/
def isLoadUse (prev : Option Instr) (i : Instr) : Bool :=
  match prev with
  | some (.lw rt _ _) => decide (rt ∈ srcsOf i)
  | _ => false

/-- This instruction is a taken BEQ whose target is inside the program (R236). -/
def isTakenInside (i : Instr) (s : State) : Bool :=
  match i with
  | .beq rs rt off =>
    branchTaken (readReg s.x rs) (readReg s.x rt) && s.hasInstr (branchTarget s.pc off)
  | _ => false

/-- Count the instruction that the next step of `Seq` executes from `s`, if it executes one. -/
def Tally.count (t : Tally) (s : State) : Tally :=
  match s.status with
  | .done => t
  | .error _ => t
  | .running =>
    if s.hasInstr s.pc then
      match decode (s.progWord s.pc) with
      | .legal i =>
        { executed := t.executed + 1
          loadUse := t.loadUse + (if isLoadUse t.last i then 1 else 0)
          taken := t.taken + (if isTakenInside i s then 1 else 0)
          last := some i }
      | .illegal _ => t
    else t

/-- `n` steps of `Seq` with their counts. -/
def seqTally : Nat → State → Tally → Tally
  | 0, _, t => t
  | n + 1, s, t =>
    match seqStep s with
    | .next s' => seqTally n s' (t.count s)
    | .fault _ => t
    | .refused _ => t

/-- The cycle count R236 gives a run that ends in DONE: `E + 4 + S + T`, and 0 when E = 0. -/
def Tally.cycles (t : Tally) : Nat :=
  if t.executed = 0 then 0 else t.executed + 4 + t.loadUse + t.taken

end Sys2Proof.Machine
end

