-- ==== Sys2Proof/Safety.lean ====
section
/-! DEFINITION. What a run is, when it is safe, and the invariant of the pipeline.  A claim about a program is a
claim about a run that ends in DONE; ERROR is a fault and satisfies no postcondition (00_scope.md R13,
60_exceptions.md R205). -/

namespace Sys2Proof.Machine

/-! ## Runs -/

/-- `t` is the state after `n` cycles from `s`, none of which stopped with a model fault. -/
def ReachesIn (n : Nat) (s t : State) : Prop := Host.Core.run Sys2Proof.core n s = .next t

/-- The run from `s` ends in DONE with the state `t` (R112). -/
def EndsDone (s t : State) : Prop := ∃ n, ReachesIn n s t ∧ t.status = .done

/-- The run from `s` ends in ERROR with the state `t` (R203). -/
def EndsError (s t : State) (e : FatalError) : Prop := ∃ n, ReachesIn n s t ∧ t.status = .error e

/-- `Seq` from `s` halts with the state `t` and no error (R140). -/
def SeqHalts (s t : State) : Prop := ∃ n, seqRun n s = .next t ∧ t.status = .done

/-- `Seq` from `s` stops with an error (R140). -/
def SeqStops (s t : State) (e : FatalError) : Prop := ∃ n, seqRun n s = .next t ∧ t.status = .error e

/-- `t` has the latches, the counter, the status, the launch and the reset pin of `s`: what no
instruction on its own touches when it raises no error (R41, R140). -/
def sameContext (s t : State) : Prop :=
  t.ifid = s.ifid ∧ t.idex = s.idex ∧ t.exmem = s.exmem ∧ t.memwb = s.memwb ∧ t.cycle = s.cycle ∧
    t.status = s.status ∧ t.launch = s.launch ∧ t.rst = s.rst

/-! ## The invariant of the pipeline -/

/-- IF/ID holds the program word of its own index, and `pc` is the index after it (R28, R35). -/
def ifidOk (s : State) : Bool :=
  match s.ifid with
  | .empty => true
  | .full f => s.hasInstr f.pc && f.word == s.progWord f.pc && s.pc == f.pc + 1#32

/-- ID/EX holds the decoding of the program word of its index with the control signals of R88, and the
instruction after it in program order comes next (R34, R36). -/
def idexOk (s : State) : Bool :=
  match s.idex with
  | .empty => true
  | .full d =>
    s.hasInstr d.pc && decode (s.progWord d.pc) == .legal d.instr && d.ctrl == ctrlOf d.instr &&
      s.frontIndex == d.pc + 1#32

/-- An ExecutedResult is of the variant of its instruction, with its destination, store source or target
(R37, R135). -/
def exFits (i : Instr) (r : ExResult) (pc : Word) : Bool :=
  match i, r with
  | .add rd _ _, .aluResult .add dest _ => dest == rd
  | .sub rd _ _, .aluResult .sub dest _ => dest == rd
  | .beq _ _ off, .branchOutcome _ target => target == branchTarget pc off
  | .lw rt _ _, .loadAddr dest _ => dest == rt
  | .sw rt _ _, .storeAddr _ src _ => src == rt
  | _, _ => false

/-- No instruction in ID/EX reads the destination of an LW in EX/MEM: the interlock (R129, R131); and
behind a taken BEQ in EX/MEM there is a bubble (R136). -/
def interlocked (r : ExResult) (l : Latch Decoded) : Bool :=
  match r, l with
  | .loadAddr dest _, .full d => !(decide (dest ∈ srcsOf d.instr))
  | .branchOutcome true _, .full _ => false
  | _, _ => true

/-- EX/MEM holds the result of the program word of its index (R37). -/
def exmemOk (s : State) : Bool :=
  match s.exmem with
  | .empty => true
  | .full e =>
    s.hasInstr e.pc && interlocked e.result s.idex &&
      match decode (s.progWord e.pc) with
      | .legal i => e.ctrl == ctrlOf i && exFits i e.result e.pc
      | .illegal _ => false

/-- A MemResult is of the variant of its instruction, with its destination (R38). -/
def wbFits (i : Instr) (r : WbResult) : Bool :=
  match i, r with
  | .add rd _ _, .aluPass .add dest _ => dest == rd
  | .sub rd _ _, .aluPass .sub dest _ => dest == rd
  | .beq _ _ _, .noWriteBack => true
  | .lw rt _ _, .loaded dest _ => dest == rt
  | .sw _ _ _, .noWriteBack => true
  | _, _ => false

/-- MEM/WB holds the result of the program word of its index (R38). -/
def memwbOk (s : State) : Bool :=
  match s.memwb with
  | .empty => true
  | .full m =>
    s.hasInstr m.pc &&
      match decode (s.progWord m.pc) with
      | .legal i => m.ctrl == ctrlOf i && wbFits i m.result
      | .illegal _ => false

/-- The data memory is in canonical form and lies in the declared extent (R44, R67). -/
def dmemOk (s : State) : Bool := Memory.wf s.dmem && Memory.within s.dmem s.launch.memWords

/-- A run that is DONE has drained and has no instruction left (R112); an error carries what its rule
says: an illegal word, or an index outside the extent (R200, R202). -/
def statusOk (s : State) : Bool :=
  match s.status with
  | .running => true
  | .done => completes s
  | .error (.formatError w _) => (decode? w).isNone
  | .error (.addressError a _) => !s.inExtent a

/-- The invariant of the pipeline. -/
def State.inv (s : State) : Bool :=
  s.launch.wf && dmemOk s && ifidOk s && idexOk s && exmemOk s && memwbOk s && statusOk s

/-! ## What happens in the next cycle -/

/-- A cycle runs at the next clock edge: the core is RUNNING, out of reset, and not complete (R110, R112). -/
def State.runsCycle (s : State) : Bool := !s.rst && s.status == .running && !completes s

/-- MEM raises no AddressError in the next cycle (R202). -/
def memClean (s : State) : Bool :=
  match s.exmem with
  | .empty => true
  | .full e =>
    match e.result with
    | .loadAddr _ addr => s.inExtent addr
    | .storeAddr addr _ _ => s.inExtent addr
    | .aluResult _ _ _ => true
    | .branchOutcome _ _ => true

/-- The redirect of the next cycle: the target of a BEQ in ID/EX that EX resolves taken (R135). -/
def redirectSignal (s : State) : Except Breach (Option Word) :=
  match s.idex with
  | .empty => .ok none
  | .full d =>
    match exResult s (wbStage s).x d with
    | .error b => .error b
    | .ok (.branchOutcome true target) => .ok (some target)
    | .ok _ => .ok none

/-- The word that ID decodes in the next cycle, with its index: the one in IF/ID when there is neither a
redirect nor a stall (R120, case 4). -/
def decodesNext (s : State) : Latch Fetched :=
  match redirectSignal s, stallSignal s with
  | .ok none, .ok false => s.ifid
  | _, _ => .empty

/-- ID raises no FormatError in the next cycle (R200). -/
def idClean (s : State) : Bool :=
  match decodesNext s with
  | .empty => true
  | .full f => (decode? f.word).isSome

/-- The word index and the value that MEM stores in the next cycle: an SW in EX/MEM whose address is in
the extent (R118, R183). -/
def storedNow (s : State) : Option (Word × Word) :=
  match s.exmem with
  | .full ⟨.storeAddr addr _ data, _, _⟩ => if s.inExtent addr then some (addr, data) else none
  | _ => none

/-- The register and the value that WB writes in the next cycle, register 0 included (R115). -/
def writtenNow (s : State) : Option (RegIdx × Word) :=
  match s.memwb with
  | .full ⟨.loaded dest value, _, _⟩ => some (dest, value)
  | .full ⟨.aluPass _ dest value, _, _⟩ => some (dest, value)
  | _ => none

/-- The `pc` field of a latch's payload, if it holds one: which instruction is in flight there (R27). -/
def ifidPc (s : State) : Option Word :=
  match s.ifid with
  | .empty => none
  | .full f => some f.pc

/-- The instruction index of the payload in ID/EX. -/
def idexPc (s : State) : Option Word :=
  match s.idex with
  | .empty => none
  | .full d => some d.pc

/-- The instruction index of the payload in EX/MEM. -/
def exmemPc (s : State) : Option Word :=
  match s.exmem with
  | .empty => none
  | .full e => some e.pc

/-- The instruction index of the payload in MEM/WB. -/
def memwbPc (s : State) : Option Word :=
  match s.memwb with
  | .empty => none
  | .full m => some m.pc

/-- The architectural state seen by the instruction in ID/EX: the instructions in MEM/WB and EX/MEM,
which are older, are carried to their end (R205). -/
def olderView (s : State) : State :=
  match s.exmem with
  | .empty => wbStage s
  | .full e => finish e s.pc (wbStage s)

end Sys2Proof.Machine
end

