-- ==== Sys2Proof/Certificates/Slice0/Obligations.lean ====
section
/-! DEFINITION. The statements for the provers.  Each docstring names the rules of `spec/` it formalises.
`exec` is an instruction on its own (40_pipeline.md R140), `step` is one clock cycle (R110). -/

open Sys2Proof Sys2Proof.Machine

/-! ## Encoding (30_encoding.md) -/

/-- R94: the encoder's fields, and that it is the inverse of `decode` on legal words. -/
def Obligations.EncoderIsTheInverseOfDecode : Prop :=
  (∀ i : Instr, i.wellFormed = true → decode (encode i) = .legal i) ∧
  (∀ (w : Word) (i : Instr), decode w = .legal i → i.wellFormed = true ∧ encode i = w) ∧
  (∀ rd rs rt : RegIdx,
    encode (.add rd rs rt) = 0b000000#6 ++ rs ++ rt ++ rd ++ 0b00000#5 ++ 0b100000#6 ∧
    encode (.sub rd rs rt) = 0b000000#6 ++ rs ++ rt ++ rd ++ 0b00000#5 ++ 0b100010#6) ∧
  (∀ (rs rt : RegIdx) (off : Word),
    encode (.beq rs rt off) = 0b000100#6 ++ rs ++ rt ++ off.extractLsb' 0 16 ∧
    encode (.lw rt off rs) = 0b100011#6 ++ rs ++ rt ++ off.extractLsb' 0 16 ∧
    encode (.sw rt off rs) = 0b101011#6 ++ rs ++ rt ++ off.extractLsb' 0 16)

/-- R83: a word is an instruction exactly when it lies in that instruction's row, its operands are the
fields of R84 and R85, no word lies in two rows, and a word in no row is illegal. -/
def Obligations.OpcodeMapDecidesEveryWord : Prop :=
  (∀ (w : Word) (rd rs rt : RegIdx), decode w = .legal (.add rd rs rt) ↔
    (w &&& 0xFC0007FF#32 = 0x00000020#32 ∧ rs = w.extractLsb' 21 5 ∧ rt = w.extractLsb' 16 5 ∧
      rd = w.extractLsb' 11 5)) ∧
  (∀ (w : Word) (rd rs rt : RegIdx), decode w = .legal (.sub rd rs rt) ↔
    (w &&& 0xFC0007FF#32 = 0x00000022#32 ∧ rs = w.extractLsb' 21 5 ∧ rt = w.extractLsb' 16 5 ∧
      rd = w.extractLsb' 11 5)) ∧
  (∀ (w : Word) (rs rt : RegIdx) (off : Word), decode w = .legal (.beq rs rt off) ↔
    (w &&& 0xFC000000#32 = 0x10000000#32 ∧ rs = w.extractLsb' 21 5 ∧ rt = w.extractLsb' 16 5 ∧
      off = (w.extractLsb' 0 16).signExtend 32)) ∧
  (∀ (w : Word) (rs rt : RegIdx) (off : Word), decode w = .legal (.lw rt off rs) ↔
    (w &&& 0xFC000000#32 = 0x8C000000#32 ∧ rs = w.extractLsb' 21 5 ∧ rt = w.extractLsb' 16 5 ∧
      off = (w.extractLsb' 0 16).signExtend 32)) ∧
  (∀ (w : Word) (rs rt : RegIdx) (off : Word), decode w = .legal (.sw rt off rs) ↔
    (w &&& 0xFC000000#32 = 0xAC000000#32 ∧ rs = w.extractLsb' 21 5 ∧ rt = w.extractLsb' 16 5 ∧
      off = (w.extractLsb' 0 16).signExtend 32)) ∧
  (∀ w : Word, (opcodeRows.filter (inRow w)).length ≤ 1) ∧
  (∀ w : Word, (∀ row ∈ opcodeRows, inRow w row = false) → ∃ why, decode w = .illegal why)

/-- R87: the illegal words are exactly those of its three cases. -/
def Obligations.IllegalWordsAreExactlyThreeKinds : Prop :=
  ∀ w : Word, (∃ why, decode w = .illegal why) ↔
    ((w.extractLsb' 26 6 ≠ 0x00#6 ∧ w.extractLsb' 26 6 ≠ 0x04#6 ∧ w.extractLsb' 26 6 ≠ 0x23#6 ∧
        w.extractLsb' 26 6 ≠ 0x2B#6) ∨
     (w.extractLsb' 26 6 = 0x00#6 ∧ w.extractLsb' 0 6 ≠ 0x20#6 ∧ w.extractLsb' 0 6 ≠ 0x22#6) ∨
     (w.extractLsb' 26 6 = 0x00#6 ∧ (w.extractLsb' 0 6 = 0x20#6 ∨ w.extractLsb' 0 6 = 0x22#6) ∧
        w.extractLsb' 6 5 ≠ 0#5))

/-- Words written out from R81 to R83 and the vectors V7, V8, V9, V11 and V12: one of each instruction,
and two illegal ones. -/
def Obligations.WrittenOutWordsDecode : Prop :=
  decode 0b00000000010000110000100000100000#32 = .legal (.add 1#5 2#5 3#5) ∧
  decode 0b00000011110111011111100000100010#32 = .legal (.sub 31#5 30#5 29#5) ∧
  decode 0b00010000001000100000000000000101#32 = .legal (.beq 1#5 2#5 5#32) ∧
  decode 0b10001100011000101111111111111111#32 = .legal (.lw 2#5 0xFFFFFFFF#32 3#5) ∧
  decode 0b10101111111111110111111111111111#32 = .legal (.sw 31#5 32767#32 31#5) ∧
  decode 0x00000000#32 = .illegal (.unknownFunct 0#6) ∧
  decode 0xFFFFFFFF#32 = .illegal (.unknownOpcode 0x3F#6)

/-- R92: the source registers of a word. -/
def Obligations.SourceRegistersOfAWord : Prop :=
  ∀ (w : Word) (r : RegIdx),
    (∀ rd rs rt, decode w = .legal (.add rd rs rt) → (r ∈ srcs w ↔ r = rs ∨ r = rt)) ∧
    (∀ rd rs rt, decode w = .legal (.sub rd rs rt) → (r ∈ srcs w ↔ r = rs ∨ r = rt)) ∧
    (∀ rs rt off, decode w = .legal (.beq rs rt off) → (r ∈ srcs w ↔ r = rs ∨ r = rt)) ∧
    (∀ rt off rs, decode w = .legal (.sw rt off rs) → (r ∈ srcs w ↔ r = rs ∨ r = rt)) ∧
    (∀ rt off rs, decode w = .legal (.lw rt off rs) → (r ∈ srcs w ↔ r = rs)) ∧
    (∀ why, decode w = .illegal why → r ∉ srcs w)

/-- R88: the control-signal table. -/
def Obligations.ControlSignalTable : Prop :=
  ∀ (rd rs rt : RegIdx) (off : Word),
    ctrlOf (.add rd rs rt) =
      ⟨.one, .zero, .zero, .one, .zero, .zero, .zero, some 0b10#2⟩ ∧
    ctrlOf (.sub rd rs rt) =
      ⟨.one, .zero, .zero, .one, .zero, .zero, .zero, some 0b11#2⟩ ∧
    ctrlOf (.lw rt off rs) =
      ⟨.zero, .one, .one, .one, .one, .zero, .zero, some 0b00#2⟩ ∧
    ctrlOf (.sw rt off rs) =
      ⟨.dontCare, .one, .dontCare, .zero, .zero, .one, .zero, some 0b00#2⟩ ∧
    ctrlOf (.beq rs rt off) =
      ⟨.dontCare, .zero, .dontCare, .zero, .zero, .zero, .one, some 0b01#2⟩

/-- R89: RegDst picks `rd` for ADD and SUB and `rt` for LW; SW and BEQ have no destination, and their
`X` is not read. -/
def Obligations.DestinationFollowsRegDst : Prop :=
  ∀ (w : Word) (i : Instr), decode w = .legal i →
    destByCtrl (ctrlOf i) (rdField w) (rtField w) =
      .ok (match i with
        | .add rd _ _ => some rd
        | .sub rd _ _ => some rd
        | .lw rt _ _ => some rt
        | .sw _ _ _ => none
        | .beq _ _ _ => none)

/-- R33, R206: the signals that decisions read are never `X` in a decoded instruction, and a decision
that would read an `X` raises InternalInvariant. -/
def Obligations.DontCareIsNeverReadAsABit : Prop :=
  (∀ i : Instr, (ctrlOf i).regWrite ≠ .dontCare ∧ (ctrlOf i).memRead ≠ .dontCare) ∧
  (∀ (s : State) (d : Decoded) (f : Fetched), s.idex = .full d → s.ifid = .full f →
    d.ctrl.memRead = .dontCare → stallSignal s = .error .readDontCare) ∧
  (∀ (s : State) (x : RegFile) (r : RegIdx) (e : Executed), s.exmem = .full e →
    e.ctrl.regWrite = .dontCare → forward s x r = .error .readDontCare) ∧
  (∀ (s : State) (x : RegFile) (r : RegIdx) (m : MemDone), s.exmem = .empty → s.memwb = .full m →
    m.ctrl.regWrite = .dontCare → forward s x r = .error .readDontCare)

/-! ## Instructions on their own (41_arithmetic.md, 42_branch.md, 43_load_store.md) -/

/-- R161, R162, R23, R207: ADD and SUB, in every state and for every register, register 0 included, with
their frame. -/
def Obligations.AddAndSubWriteTheirDestination : Prop :=
  ∀ (rd rs rt : RegIdx) (s : State),
    (∃ t, exec (.add rd rs rt) s = .next t ∧
      (∀ r, readReg t.x r =
        if r = rd ∧ rd ≠ 0#5 then readReg s.x rs + readReg s.x rt else readReg s.x r) ∧
      t.pc = s.pc + 1#32 ∧ (∀ a, t.dmem.read a = s.dmem.read a) ∧ sameContext s t) ∧
    (∃ t, exec (.sub rd rs rt) s = .next t ∧
      (∀ r, readReg t.x r =
        if r = rd ∧ rd ≠ 0#5 then readReg s.x rs - readReg s.x rt else readReg s.x r) ∧
      t.pc = s.pc + 1#32 ∧ (∀ a, t.dmem.read a = s.dmem.read a) ∧ sameContext s t)

/-- R160: addition and subtraction are modulo `2^32` on the unsigned values, the bit pattern is the same on
the signed values, and overflow signals nothing. -/
def Obligations.ArithmeticWrapsModulo : Prop :=
  ∀ (rd rs rt : RegIdx) (s : State), rd ≠ 0#5 →
    (∃ t, exec (.add rd rs rt) s = .next t ∧ t.status = s.status ∧
      (readReg t.x rd).toNat = ((readReg s.x rs).toNat + (readReg s.x rt).toNat) % 2 ^ 32 ∧
      readReg t.x rd = BitVec.ofInt 32 ((readReg s.x rs).toInt + (readReg s.x rt).toInt)) ∧
    (∃ t, exec (.sub rd rs rt) s = .next t ∧ t.status = s.status ∧
      ((readReg t.x rd).toNat : Int) =
        (((readReg s.x rs).toNat : Int) - ((readReg s.x rt).toNat : Int)) % 2 ^ 32 ∧
      readReg t.x rd = BitVec.ofInt 32 ((readReg s.x rs).toInt - (readReg s.x rt).toInt))

/-- R170 to R173, R29: BEQ goes to its own index plus the displacement when all 32 bits of its comparands
agree, and to the next index otherwise; it changes nothing else. -/
def Obligations.BeqChoosesTheNextIndex : Prop :=
  ∀ (rs rt : RegIdx) (off : Word) (s : State),
    ∃ t, exec (.beq rs rt off) s = .next t ∧
      t.pc = (if readReg s.x rs = readReg s.x rt then s.pc + off else s.pc + 1#32) ∧
      (∀ r, readReg t.x r = readReg s.x r) ∧ (∀ a, t.dmem.read a = s.dmem.read a) ∧ sameContext s t

/-- R180, R181, R62: LW of a word in the extent, with its frame; register 0 stays 0. -/
def Obligations.LwLoadsTheWord : Prop :=
  ∀ (rt : RegIdx) (off : Word) (rs : RegIdx) (s : State),
    (readReg s.x rs + off).toNat < s.launch.memWords →
    ∃ t, exec (.lw rt off rs) s = .next t ∧
      (∀ r, readReg t.x r =
        if r = rt ∧ rt ≠ 0#5 then s.dmem.read (readReg s.x rs + off).toNat else readReg s.x r) ∧
      t.pc = s.pc + 1#32 ∧ (∀ a, t.dmem.read a = s.dmem.read a) ∧ sameContext s t

/-- R182, R183, R63: SW of a word in the extent: the word at the effective address, and no other, takes
the value of `rt`; no register changes. -/
def Obligations.SwStoresTheWord : Prop :=
  ∀ (rt : RegIdx) (off : Word) (rs : RegIdx) (s : State), Memory.wf s.dmem = true →
    (readReg s.x rs + off).toNat < s.launch.memWords →
    ∃ t, exec (.sw rt off rs) s = .next t ∧
      (∀ a, t.dmem.read a =
        if a = (readReg s.x rs + off).toNat then readReg s.x rt else s.dmem.read a) ∧
      (∀ r, readReg t.x r = readReg s.x r) ∧ t.pc = s.pc + 1#32 ∧ sameContext s t

/-- R181, R183, R202: an LW or SW whose effective address, read unsigned, is at or above MEM_WORDS is an
AddressError with the address and the instruction's index; nothing is written. -/
def Obligations.OutOfExtentAccessIsAnAddressError : Prop :=
  ∀ (rt : RegIdx) (off : Word) (rs : RegIdx) (s : State),
    s.launch.memWords ≤ (readReg s.x rs + off).toNat →
    exec (.lw rt off rs) s =
      .next { s with status := .error (.addressError (readReg s.x rs + off) s.pc) } ∧
    exec (.sw rt off rs) s =
      .next { s with status := .error (.addressError (readReg s.x rs + off) s.pc) }

/-- R70: an LW right after an SW gives the stored value at the same word index, and at another index the
word that was there before. -/
def Obligations.LoadAfterStoreSeesTheStore : Prop :=
  ∀ (rt rs rt' rs' : RegIdx) (off off' : Word) (s t u : State), Memory.wf s.dmem = true →
    (readReg s.x rs + off).toNat < s.launch.memWords →
    (readReg s.x rs' + off').toNat < s.launch.memWords → rt' ≠ 0#5 →
    exec (.sw rt off rs) s = .next t → exec (.lw rt' off' rs') t = .next u →
    readReg u.x rt' =
      if readReg s.x rs' + off' = readReg s.x rs + off then readReg s.x rt
      else s.dmem.read (readReg s.x rs' + off').toNat

/-! ## Forwarding (40_pipeline.md R125 to R129, 10_state.md R25) -/

/-- R126: EX/MEM outranks MEM/WB, MEM/WB outranks the register file; a candidate has RegWrite = 1 and a
destination that is not 0; an EMPTY latch is never a candidate. -/
def Obligations.ForwardingPriority : Prop :=
  ∀ (s : State) (x : RegFile) (r : RegIdx),
    (∀ op dest value c pc, s.exmem = .full ⟨.aluResult op dest value, c, pc⟩ → c.regWrite = .one →
      dest ≠ 0#5 → dest = r → forward s x r = .ok (.forwardFromExMem, value)) ∧
    ((s.exmem = .empty ∨ (∃ e, s.exmem = .full e ∧ e.ctrl.regWrite = .zero) ∨
        (∃ op dest value c pc, s.exmem = .full ⟨.aluResult op dest value, c, pc⟩ ∧
          c.regWrite = .one ∧ (dest = 0#5 ∨ dest ≠ r)) ∨
        (∃ dest addr c pc, s.exmem = .full ⟨.loadAddr dest addr, c, pc⟩ ∧
          c.regWrite = .one ∧ (dest = 0#5 ∨ dest ≠ r))) →
      (∀ op dest value c pc, s.memwb = .full ⟨.aluPass op dest value, c, pc⟩ → c.regWrite = .one →
        dest ≠ 0#5 → dest = r → forward s x r = .ok (.forwardFromMemWb, value)) ∧
      (∀ dest value c pc, s.memwb = .full ⟨.loaded dest value, c, pc⟩ → c.regWrite = .one →
        dest ≠ 0#5 → dest = r → forward s x r = .ok (.forwardFromMemWb, value)) ∧
      ((s.memwb = .empty ∨ (∃ m, s.memwb = .full m ∧ m.ctrl.regWrite = .zero) ∨
          (∃ op dest value c pc, s.memwb = .full ⟨.aluPass op dest value, c, pc⟩ ∧
            c.regWrite = .one ∧ (dest = 0#5 ∨ dest ≠ r)) ∨
          (∃ dest value c pc, s.memwb = .full ⟨.loaded dest value, c, pc⟩ ∧
            c.regWrite = .one ∧ (dest = 0#5 ∨ dest ≠ r))) →
        forward s x r = .ok (.useRegisterFile, readReg x r)))

/-- R129, R206: a forwarding match on an LW in EX/MEM raises InternalInvariant, at the multiplexer and in
the cycle; the address is never forwarded. -/
def Obligations.LoadAddressIsNeverForwarded : Prop :=
  ∀ (s : State) (dest : RegIdx) (addr : Word) (c : Ctrl) (pc : Word),
    s.exmem = .full ⟨.loadAddr dest addr, c, pc⟩ → c.regWrite = .one → dest ≠ 0#5 →
    (∀ x, forward s x dest = .error .forwardFromLoad) ∧
    (∀ d, s.idex = .full d → dest ∈ srcsOf d.instr → s.runsCycle = true → s.inExtent addr = true →
      ∃ b, step s = .fault (.internalInvariant b))

/-- R126, R233: in every state of the invariant the multiplexer gives a source register of the
instruction in ID/EX the value it has after all older instructions. -/
def Obligations.ForwardedOperandIsTheProgramOrderValue : Prop :=
  ∀ (s : State) (d : Decoded) (r : RegIdx), s.inv = true → s.idex = .full d →
    r ∈ srcsOf d.instr → memClean s = true →
    fwd s (wbStage s).x r = .ok (readReg (olderView s).x r)

/-- R25: operand values do not depend on WB being evaluated before EX. -/
def Obligations.OperandsDoNotDependOnWriteBackOrder : Prop :=
  ∀ (s : State) (r : RegIdx), s.inv = true → fwd s (wbStage s).x r = fwd s s.x r

/-! ## Stall (R130 to R134) -/

/-- R130: the comparator, for every ID/EX payload that carries the control signals of its instruction. -/
def Obligations.StallIsTheLoadUseCondition : Prop :=
  ∀ s : State, (∀ d, s.idex = .full d → d.ctrl = ctrlOf d.instr) →
    (stallSignal s = .ok true ∨ stallSignal s = .ok false) ∧
    (stallSignal s = .ok true ↔
      ∃ rt off rs c pc f, s.idex = .full ⟨.lw rt off rs, c, pc⟩ ∧ s.ifid = .full f ∧
        rt ∈ srcs f.word)

/-- R131: a stall holds IF/ID and `pc`, puts a bubble into ID/EX, and EX, MEM and WB go on. -/
def Obligations.StallFreezesFetchAndDecode : Prop :=
  ∀ s : State, s.inv = true → s.runsCycle = true → memClean s = true → stallSignal s = .ok true →
    ∃ t, step s = .next t ∧ t.status = .running ∧ t.ifid = s.ifid ∧ t.pc = s.pc ∧
      t.idex = .empty ∧ exmemPc t = idexPc s ∧ memwbPc t = exmemPc s ∧ t.x = (wbStage s).x

/-- R132: the stall lasts one cycle: the consumer is what ID decodes in the next one, and when it has
entered ID/EX the LW is in MEM/WB. -/
def Obligations.StallLastsOneCycle : Prop :=
  ∀ s t : State, s.inv = true → s.runsCycle = true → stallSignal s = .ok true →
    step s = .next t → t.status = .running →
    stallSignal t = .ok false ∧ decodesNext t = s.ifid ∧
    (∀ u, step t = .next u → u.status = .running →
      idexPc u = ifidPc s ∧ memwbPc u = idexPc s)

/-- R138: a stall and a redirect never coincide, because a stall needs ID/EX to be an LW and a redirect
needs it to be a BEQ. -/
def Obligations.StallAndRedirectNeverCoincide : Prop :=
  ∀ (s : State) (target : Word),
    (stallSignal s = .ok true → redirectSignal s ≠ .ok (some target)) ∧
    (stallSignal s = .ok true → ∃ rt off rs c pc, s.idex = .full ⟨.lw rt off rs, c, pc⟩) ∧
    (redirectSignal s = .ok (some target) → ∃ rs rt off c pc, s.idex = .full ⟨.beq rs rt off, c, pc⟩)

/-! ## Branches in the pipeline (R135 to R137, 42_branch.md R171, R172) -/

/-- R120, R135, R136, R137, R172: a BEQ resolved taken squashes the word in IF/ID, legal or not, and the
same cycle fetches at the target, or fetches nothing when the target is at or above N. -/
def Obligations.TakenBranchSquashesAndFetchesTheTarget : Prop :=
  ∀ (s : State) (rs rt : RegIdx) (off : Word) (c : Ctrl) (pc a : Word), s.inv = true →
    s.runsCycle = true → memClean s = true → s.idex = .full ⟨.beq rs rt off, c, pc⟩ →
    fwd s (wbStage s).x rs = .ok a → fwd s (wbStage s).x rt = .ok a →
    ∃ t, step s = .next t ∧ t.status = .running ∧
      t.exmem = .full ⟨.branchOutcome true (pc + off), c, pc⟩ ∧ t.idex = .empty ∧
      ((pc + off).toNat < s.launch.progLen →
        t.ifid = .full ⟨s.progWord (pc + off), pc + off⟩ ∧ t.pc = pc + off + 1#32) ∧
      (s.launch.progLen ≤ (pc + off).toNat → t.ifid = .empty ∧ t.pc = pc + off)

/-- R171, R121: after a BEQ resolved not taken the word in IF/ID is decoded and fetch goes on at `pc`. -/
def Obligations.NotTakenBranchCostsNothing : Prop :=
  ∀ (s : State) (rs rt : RegIdx) (off : Word) (c : Ctrl) (pc a b : Word), s.inv = true →
    s.runsCycle = true → memClean s = true → idClean s = true →
    s.idex = .full ⟨.beq rs rt off, c, pc⟩ → fwd s (wbStage s).x rs = .ok a →
    fwd s (wbStage s).x rt = .ok b → a ≠ b →
    ∃ t, step s = .next t ∧ t.status = .running ∧
      t.exmem = .full ⟨.branchOutcome false (pc + off), c, pc⟩ ∧
      (∀ f i, s.ifid = .full f → decode f.word = .legal i → t.idex = .full ⟨i, ctrlOf i, f.pc⟩) ∧
      (s.ifid = .empty → t.idex = .empty) ∧
      (s.pc.toNat < s.launch.progLen →
        t.ifid = .full ⟨s.progWord s.pc, s.pc⟩ ∧ t.pc = s.pc + 1#32) ∧
      (s.launch.progLen ≤ s.pc.toNat → t.ifid = .empty ∧ t.pc = s.pc)

/-! ## The cycle (R110 to R121, R142 to R144) -/

/-- R112: with four EMPTY latches and no instruction at `pc` the cycle sets DONE and changes nothing
else, the counter included. -/
def Obligations.CompletionOnlySetsDone : Prop :=
  ∀ s : State, s.rst = false → s.status = .running → s.ifid = .empty → s.idex = .empty →
    s.exmem = .empty → s.memwb = .empty → s.launch.progLen ≤ s.pc.toNat →
    step s = .next { s with status := .done }

/-- R40, R110, R230: DONE and ERROR are absorbing, and no cycle runs while `rst = 1`. -/
def Obligations.DoneErrorAndResetHoldTheState : Prop :=
  ∀ (s : State) (e : FatalError),
    (s.status = .done → step s = .next s) ∧ (s.status = .error e → step s = .next s) ∧
    (s.rst = true → step s = .next s)

/-- R39, R112, R114, R203: the counter counts every cycle that runs, aborted ones included, and nothing
else. -/
def Obligations.CycleCounterCountsRunningCycles : Prop :=
  ∀ s t : State, step s = .next t →
    t.cycle = if s.runsCycle = true then s.cycle + 1#64 else s.cycle

/-- R115, R116, R22, R23: in a cycle that runs, whatever else happens in it, the registers change by the
write of WB and by nothing else; a write to register 0 has no effect. -/
def Obligations.RegistersChangeOnlyByWriteBack : Prop :=
  ∀ s t : State, step s = .next t → ∀ r,
    readReg t.x r =
      match s.runsCycle, writtenNow s with
      | true, some (dest, value) => if r = dest ∧ dest ≠ 0#5 then value else readReg s.x r
      | _, _ => readReg s.x r

/-- R118, R63, R144: in a cycle that runs the data memory changes at the word an SW in EX/MEM stores to,
if that is in the extent, and nowhere else. -/
def Obligations.MemoryChangesOnlyByAStoreInMem : Prop :=
  ∀ s t : State, Memory.wf s.dmem = true → step s = .next t → ∀ a,
    t.dmem.read a =
      match s.runsCycle, storedNow s with
      | true, some (addr, value) => if a = addr.toNat then value else s.dmem.read a
      | _, _ => s.dmem.read a

/-- R118: what MEM puts into MEM/WB, row by row. -/
def Obligations.MemStageFillsMemWb : Prop :=
  ∀ s t : State, s.runsCycle = true → step s = .next t → t.status = .running →
    t.memwb =
      match s.exmem with
      | .empty => .empty
      | .full ⟨.aluResult op dest value, c, pc⟩ => .full ⟨.aluPass op dest value, c, pc⟩
      | .full ⟨.loadAddr dest addr, c, pc⟩ => .full ⟨.loaded dest (s.dmem.read addr.toNat), c, pc⟩
      | .full ⟨.storeAddr _ _ _, c, pc⟩ => .full ⟨.noWriteBack, c, pc⟩
      | .full ⟨.branchOutcome _ _, c, pc⟩ => .full ⟨.noWriteBack, c, pc⟩

/-- R117, R161, R162, R170, R180, R182: what EX puts into EX/MEM for each instruction, with the operands
the older instructions leave. -/
def Obligations.ExStageComputesEachInstruction : Prop :=
  ∀ (s : State) (d : Decoded), s.inv = true → s.runsCycle = true → memClean s = true →
    idClean s = true → s.idex = .full d →
    ∃ t, step s = .next t ∧ t.status = .running ∧
      t.exmem = .full
        ⟨match d.instr with
          | .add rd rs rt =>
            .aluResult .add rd (readReg (olderView s).x rs + readReg (olderView s).x rt)
          | .sub rd rs rt =>
            .aluResult .sub rd (readReg (olderView s).x rs - readReg (olderView s).x rt)
          | .beq rs rt off =>
            .branchOutcome (readReg (olderView s).x rs == readReg (olderView s).x rt) (d.pc + off)
          | .lw rt off rs => .loadAddr rt (readReg (olderView s).x rs + off)
          | .sw rt off rs =>
            .storeAddr (readReg (olderView s).x rs + off) rt (readReg (olderView s).x rt),
          d.ctrl, d.pc⟩

/-- R34, R142, R235: every instruction moves one latch on in each cycle that raises nothing; only the one
in IF/ID may wait, in a stall, or be squashed. -/
def Obligations.InstructionsMoveOneLatchACycle : Prop :=
  ∀ s t : State, s.runsCycle = true → step s = .next t → t.status = .running →
    memwbPc t = exmemPc s ∧ exmemPc t = idexPc s ∧
    ((∃ target, redirectSignal s = .ok (some target)) → idexPc t = none) ∧
    (redirectSignal s = .ok none → stallSignal s = .ok true → idexPc t = none ∧ t.ifid = s.ifid) ∧
    (redirectSignal s = .ok none → stallSignal s = .ok false → idexPc t = ifidPc s)

/-! ## Fatal errors (60_exceptions.md) -/

/-- R200, R203: ID decodes an illegal word: FormatError with the word and its index.  The writes of WB and
MEM in the cycle stay, the latches and `pc` keep their values, the cycle is counted. -/
def Obligations.FormatErrorAborts : Prop :=
  ∀ (s : State) (f : Fetched) (why : IllegalReason), s.inv = true → s.runsCycle = true →
    memClean s = true → decodesNext s = .full f → decode f.word = .illegal why →
    ∃ t, step s = .next t ∧ t.status = .error (.formatError f.word f.pc) ∧ t.pc = s.pc ∧
      t.ifid = s.ifid ∧ t.idex = s.idex ∧ t.exmem = s.exmem ∧ t.memwb = s.memwb ∧
      t.cycle = s.cycle + 1#64 ∧ t.x = (wbStage s).x ∧
      (∀ a, t.dmem.read a =
        match storedNow s with
        | some (addr, value) => if a = addr.toNat then value else s.dmem.read a
        | none => s.dmem.read a)

/-- R202, R203, R205 (a): an LW or SW in EX/MEM outside the extent: AddressError with the address and the
instruction's index, whatever ID would have raised.  The write of WB stays, memory is unchanged, the
latches and `pc` keep their values, the cycle is counted. -/
def Obligations.AddressErrorAborts : Prop :=
  ∀ (s : State) (e : Executed) (addr : Word), s.runsCycle = true → s.exmem = .full e →
    ((∃ dest, e.result = .loadAddr dest addr) ∨ ∃ src data, e.result = .storeAddr addr src data) →
    s.launch.memWords ≤ addr.toNat →
    ∃ t, step s = .next t ∧ t.status = .error (.addressError addr e.pc) ∧ t.pc = s.pc ∧
      t.ifid = s.ifid ∧ t.idex = s.idex ∧ t.exmem = s.exmem ∧ t.memwb = s.memwb ∧
      t.cycle = s.cycle + 1#64 ∧ t.x = (wbStage s).x ∧ t.dmem = s.dmem

/-- R201, R204: the error codes and the information each error presents; code 3 is never output. -/
def Obligations.ErrorCodesAndInformation : Prop :=
  ∀ (s : State) (w a pc : Word),
    (s.status = .error (.formatError w pc) →
      errKind s = 1#2 ∧ errWord s = some w ∧ errPc s = some pc ∧ errAddr s = none) ∧
    (s.status = .error (.addressError a pc) →
      errKind s = 2#2 ∧ errAddr s = some a ∧ errPc s = some pc ∧ errWord s = none) ∧
    (s.status = .running ∨ s.status = .done → errKind s = 0#2 ∧ errorReport s = none) ∧
    errKind s ≠ 3#2 ∧
    (∀ e, s.status = .error e → errorReport s = some ⟨e, s.cycle⟩)

/-! ## Reset and the host (10_state.md R46, 70_reset_and_hazards.md, 40_pipeline.md R150 to R153) -/

/-- R46: the state after reset, for every launch. -/
def Obligations.ResetState : Prop :=
  ∀ l : Launch, l.wf = true →
    (∀ r, readReg (State.resetOf l).x r = if r = 0#5 then 0#32 else l.initRegs[r.toNat]) ∧
    (State.resetOf l).pc = 0#32 ∧ (State.resetOf l).ifid = .empty ∧
    (State.resetOf l).idex = .empty ∧ (State.resetOf l).exmem = .empty ∧
    (State.resetOf l).memwb = .empty ∧
    (∀ a, a < l.memWords → (State.resetOf l).dmem.read a = l.initMem.read a) ∧
    (State.resetOf l).cycle = 0#64 ∧ (State.resetOf l).status = .running ∧
    (State.resetOf l).launch = l

/-- R150, R153, R230: while `rst = 1` no cycle runs; releasing it gives the reset state of what was
loaded; while `rst = 0` an edge is a step and the load ports change nothing.  That everything but the pin and
the launch stays as it was while `rst = 1`, and that the edge which first samples `rst = 0` sets the reset
values and runs no cycle, is the model's (DEDUCED, log entry 17). -/
def Obligations.ResetPinAndLoadPorts : Prop :=
  ∀ (p : PortIn) (s : State),
    (p.rst = true → portEdge p s = .next { s with rst := true, launch := s.launch.load p }) ∧
    (p.rst = false → s.rst = true → portEdge p s = .next (State.resetOf s.launch)) ∧
    (p.rst = false → s.rst = false → portEdge p s = step s)

/-- R150, R231: what the load ports write while `rst = 1`, and that they write nothing else. -/
def Obligations.LoadPortsFillTheLaunch : Prop :=
  ∀ (p : PortIn) (l : Launch), l.wf = true →
    (l.load p).wf = true ∧
    (p.progLen.toNat ≤ 2 ^ 32 → (l.load p).progLen = p.progLen.toNat) ∧
    (p.memWords.toNat ≤ 2 ^ 32 → (l.load p).memWords = p.memWords.toNat) ∧
    (∀ a, (l.load p).prog.read a =
      if p.progWe = true ∧ a = p.progAddr.toNat then p.progWdata else l.prog.read a) ∧
    (∀ a, (l.load p).initMem.read a =
      if p.hmWe = true ∧ a = p.hmAddr.toNat then p.hmWdata else l.initMem.read a) ∧
    (∀ r, readReg (l.load p).initRegs r =
      if p.hrWe = true ∧ r = p.hrAddr ∧ r ≠ 0#5 then p.hrWdata else readReg l.initRegs r)

/-- R151: a snapshot after each cycle that ran and ended in RUNNING, with the cycle number and the four
latches; none after the completion cycle or an error.  That a step on which no cycle ran, in reset, DONE or
ERROR, presents none is the model's choice (DESIGN CHOICE, log entry 20). -/
def Obligations.SnapshotAfterRunningCycles : Prop :=
  ∀ s t : State, step s = .next t →
    (s.runsCycle = true → t.status = .running →
      snapshotAfter s t = some ⟨t.cycle, t.ifid, t.idex, t.exmem, t.memwb⟩) ∧
    (s.runsCycle = false ∨ t.status ≠ .running → snapshotAfter s t = none)

/-- R152: the final results on DONE: 32 registers with register 0 reading 0, the memory and its extent,
the cycle count; nothing is presented otherwise. -/
def Obligations.FinalResultsOnDone : Prop :=
  ∀ s : State,
    (s.status = .done → ∃ res, finalResults s = some res ∧ res.regs.length = 32 ∧
      (∀ r : RegIdx, res.regs[r.toNat]? = some (readReg s.x r)) ∧ res.regs[0]? = some 0#32 ∧
      res.dmem = s.dmem ∧ res.memWords = s.launch.memWords ∧ res.cycles = s.cycle) ∧
    (s.status ≠ .done → finalResults s = none)

/-- R150, R204: once the run has ended the host reads the registers, register 0 as 0, and the memory in its
extent; while it is running and out of reset a read is not valid. -/
def Obligations.HostReadsAfterTheRun : Prop :=
  ∀ (s : State), s.rst = false →
    (s.status ≠ .running →
      (∀ r, hrRdata s r = some (readReg s.x r)) ∧ hrRdata s 0#5 = some 0#32 ∧
      (∀ a, a.toNat < s.launch.memWords → hmRdata s a = some (s.dmem.read a.toNat))) ∧
    (s.status = .running → hostReadValid s = false)

/-- R232: the first cycle fetches index 0 if there is an instruction; with N = 0 it sets DONE and the
count stays 0. -/
def Obligations.FirstCycleFetchesIndexZero : Prop :=
  ∀ l : Launch,
    (1 ≤ l.progLen → ∃ t, step (State.resetOf l) = .next t ∧ t.status = .running ∧
      t.ifid = .full ⟨l.prog.read 0, 0#32⟩ ∧ t.idex = .empty ∧ t.pc = 1#32 ∧ t.cycle = 1#64) ∧
    (l.progLen = 0 →
      step (State.resetOf l) = .next { State.resetOf l with status := .done })

/-- R121: the next step after `withProgramWord` fetches exactly that word at `pc`.  (`withProgramWord` is the
model's, not the spec's: log entry 5.) -/
def Obligations.NextFetchWordIsFetched : Prop :=
  ∀ (s : State) (w : Nat), Memory.wf s.launch.prog = true → w < 2 ^ 32 →
    ∃ t, step (s.withProgramWord 32 w) = .next t ∧ t.status = .running ∧
      t.ifid = .full ⟨BitVec.ofNat 32 w, s.pc⟩ ∧ t.idex = .empty ∧ t.pc = s.pc + 1#32 ∧
      t.dmem = s.dmem

/-- R120, R140, R200, R235: the very next step after `withFetchWord` runs that word.  A legal word is decoded,
and what the pipeline stands for goes on by exactly `exec` of its instruction; an illegal word is a
FormatError with its index.  On `State.reset` the registers and the data memory are those of `exec` once
the instruction has gone through EX, MEM and WB, three steps later.  (`withFetchWord` is the model's, not the
spec's: log entry 5.  The last clause is about `State.reset`, whose values are those of log entries 3 to
7.) -/
def Obligations.PlacedWordRunsAtTheNextStep : Prop :=
  (∀ (s : State) (w : Nat) (i : Instr), Memory.wf s.launch.prog = true → w < 2 ^ 32 →
    decode (BitVec.ofNat 32 w) = .legal i →
    (s.withFetchWord 32 w).archView.pc = s.pc ∧
    ∃ t, step (s.withFetchWord 32 w) = .next t ∧ t.status = .running ∧
      t.idex = .full ⟨i, ctrlOf i, s.pc⟩ ∧
      exec i (s.withFetchWord 32 w).archView = .next t.archView) ∧
  (∀ (s : State) (w : Nat) (why : IllegalReason), Memory.wf s.launch.prog = true → w < 2 ^ 32 →
    decode (BitVec.ofNat 32 w) = .illegal why →
    ∃ t, step (s.withFetchWord 32 w) = .next t ∧
      t.status = .error (.formatError (BitVec.ofNat 32 w) s.pc)) ∧
  (∀ (w : Nat) (i : Instr), w < 2 ^ 32 → decode (BitVec.ofNat 32 w) = .legal i →
    ∃ t u, exec i State.reset = .next t ∧ ReachesIn 4 (State.reset.withFetchWord 32 w) u ∧
      u.status = .running ∧ u.x = t.x ∧ u.dmem = t.dmem)

/-! ## The invariant -/

/-- The invariant holds after reset, for every launch, and so in `State.reset`. -/
def Obligations.InvariantHoldsAfterReset : Prop :=
  (∀ l : Launch, l.wf = true → (State.resetOf l).inv = true) ∧ State.reset.inv = true

/-- Every step keeps the invariant of the pipeline: canonical memory in its extent, each latch holding
the right payload of a program word, the interlock of R129 and the bubble of R136. -/
def Obligations.StepKeepsTheInvariant : Prop :=
  ∀ s t : State, s.inv = true → step s = .next t → t.inv = true

/-- R206: no state of the invariant reaches InternalInvariant: a step always answers a next state. -/
def Obligations.InvariantStateAlwaysSteps : Prop :=
  ∀ s : State, s.inv = true → ∃ t, step s = .next t

/-! ## The pipeline against one instruction at a time (40_pipeline.md R140, 60_exceptions.md R205,
70_reset_and_hazards.md R236) -/

/-- A step runs the decoded instruction, from a drained core: when the word at `pc` decodes to `i` and no
other instruction follows, five cycles do what `exec i` does and count 5; an AddressError of `i` comes
in the fourth, in its MEM (R235, R140). -/
def Obligations.DrainedCoreRunsTheDecodedInstruction : Prop :=
  ∀ (s t : State) (i : Instr), s.rst = false → s.status = .running → s.ifid = .empty →
    s.idex = .empty → s.exmem = .empty → s.memwb = .empty → s.hasInstr s.pc = true →
    decode (s.progWord s.pc) = .legal i → s.hasInstr (s.pc + 1#32) = false →
    exec i s = .next t →
    (t.status = .running → t.hasInstr t.pc = false →
      ReachesIn 5 s { t with cycle := s.cycle + 5#64 }) ∧
    (∀ e, t.status = .error e → ∃ u, ReachesIn 4 s u ∧ u.status = .error e ∧ u.x = t.x ∧
      u.dmem = t.dmem ∧ u.cycle = s.cycle + 4#64)

/-- A step runs the decoded instruction, in full flight: in the cycle in which ID decodes the word of `i`,
what the pipeline stands for goes on by exactly `exec i` (R140). -/
def Obligations.StepRunsTheDecodedInstruction : Prop :=
  ∀ (s : State) (f : Fetched) (i : Instr), s.inv = true → s.runsCycle = true →
    s.archView.status = .running → decodesNext s = .full f → decode f.word = .legal i →
    s.archView.pc = f.pc ∧
    ∃ t, step s = .next t ∧ t.status = .running ∧ exec i s.archView = .next t.archView

/-- A cycle in which ID decodes nothing, or in which an older AddressError is already on its way, leaves
what the pipeline stands for as it was (R140). -/
def Obligations.OtherCyclesKeepTheView : Prop :=
  ∀ s t : State, s.inv = true → s.runsCycle = true → step s = .next t → t.status = .running →
    (decodesNext s = .empty ∨ s.archView.status ≠ .running) → t.archView = s.archView

/-- R205 (a), (b): an AddressError is precise: registers and memory are those of the instructions before
the faulting one. -/
def Obligations.AddressErrorIsPrecise : Prop :=
  ∀ (s t : State) (a pc : Word), s.inv = true → s.runsCycle = true → step s = .next t →
    t.status = .error (.addressError a pc) →
    s.archView.status = .error (.addressError a pc) ∧ t.x = s.archView.x ∧
      t.dmem = s.archView.dmem

/-- R205 (d): a FormatError is the one `Seq` comes to next, or it overtakes the AddressError of the LW or
SW just before it, which is in EX. -/
def Obligations.FormatErrorOrder : Prop :=
  ∀ (s t : State) (w pc : Word), s.inv = true → s.runsCycle = true → step s = .next t →
    t.status = .error (.formatError w pc) →
    (s.archView.status = .running ∧
      ∃ u, seqStep s.archView = .next u ∧ u.status = .error (.formatError w pc)) ∨
    (∃ a d, s.archView.status = .error (.addressError a d.pc) ∧ s.idex = .full d ∧
      pc = d.pc + 1#32)

/-- R140 (a): if `Seq` halts with no error, the pipeline ends in DONE with the same registers and memory. -/
def Obligations.PipelineEndsDoneWhenSeqHalts : Prop :=
  ∀ (l : Launch) (t : State), l.wf = true → SeqHalts (State.resetOf l) t →
    ∃ u, EndsDone (State.resetOf l) u ∧ u.x = t.x ∧ u.dmem = t.dmem

/-- R140 (b): if `Seq` runs forever, the pipeline runs forever. -/
def Obligations.PipelineRunsForeverWhenSeqDoes : Prop :=
  ∀ l : Launch, l.wf = true →
    (∀ n, ∃ t, seqRun n (State.resetOf l) = .next t ∧ t.status = .running) →
    ∀ n, ∃ u, ReachesIn n (State.resetOf l) u ∧ u.status = .running

/-- R140 (c), R205 (d): if `Seq` stops with an error, the pipeline ends in ERROR: with the same error, or,
after an AddressError at `j`, with the FormatError of an illegal word at `j + 1`. -/
def Obligations.PipelineEndsInErrorWhenSeqStops : Prop :=
  ∀ (l : Launch) (t : State) (e : FatalError), l.wf = true → SeqStops (State.resetOf l) t e →
    ∃ u e', EndsError (State.resetOf l) u e' ∧
      (e' = e ∨ ∃ a j w why, e = .addressError a j ∧ e' = .formatError w (j + 1#32) ∧
        w = (State.resetOf l).progWord (j + 1#32) ∧ decode w = .illegal why)

/-- R236: the cycle count of a run that ends in DONE is `E + 4 + S + T`, and 0 when E = 0, with E, S and T
counted along the run of `Seq`, which halts with the same registers and memory.  The counter is 64 bits
wide (R39). -/
def Obligations.CycleCountOfACompletedRun : Prop :=
  ∀ (l : Launch) (u : State), l.wf = true → EndsDone (State.resetOf l) u →
    ∃ n t, seqRun n (State.resetOf l) = .next t ∧ t.status = .done ∧ u.x = t.x ∧
      u.dmem = t.dmem ∧
      u.cycle = BitVec.ofNat 64 (seqTally n (State.resetOf l) Tally.start).cycles

/-! ## Assembler (30_encoding.md R95 to R99) -/

/-- R98, R95: the canonical text of every instruction assembles to that instruction's word. -/
def Obligations.DisassemblyAssemblesBack : Prop :=
  ∀ i : Instr, i.wellFormed = true →
    Asm.parseLine (Asm.disassemble i) = some i ∧ Asm.assembleLine (Asm.disassemble i) = encode i

/-- R97: a line that does not match the grammar assembles to the illegal word `0xFFFFFFFF`; a line that
matches it assembles to a legal word of the instruction it says. -/
def Obligations.MalformedLinesAssembleToTheIllegalWord : Prop :=
  ∀ cs : List Char,
    (Asm.parseLine cs = none → Asm.assembleLine cs = 0xFFFFFFFF#32 ∧
      ∃ why, decode (Asm.assembleLine cs) = .illegal why) ∧
    (∀ i, Asm.parseLine cs = some i → i.wellFormed = true ∧
      decode (Asm.assembleLine cs) = .legal i)
end

