-- ==== Sys2Proof/Laws/Memory.lean ====
section
/-! SUPPORT. The laws of a memory in canonical form: what a read gives after a write, and that every memory
operation keeps the form and the extent. -/

namespace Sys2Proof.Machine.Memory

@[simp] theorem read_nil (a : Nat) : read [] a = Config.unlistedWord := rfl

theorem read_cons (b : Nat) (w : Word) (m : Memory) (a : Nat) :
    read ((b, w) :: m) a = if a = b then w else read m a := rfl

@[simp] theorem wf_nil : wf [] = true := rfl

theorem wf_cons {b : Nat} {w : Word} {m : Memory} :
    wf ((b, w) :: m) = true ↔ above b m = true ∧ w ≠ Config.unlistedWord ∧ wf m = true := by
  simp [wf, and_assoc]

theorem above_cons {b c : Nat} {w : Word} {m : Memory} :
    above b ((c, w) :: m) = true ↔ b < c ∧ above b m = true := by
  simp [above]

theorem above_trans {a b : Nat} {m : Memory} (h : a ≤ b) (hb : above b m = true) :
    above a m = true := by
  simp only [above, List.all_eq_true, decide_eq_true_eq] at *
  exact fun c hc => Nat.lt_of_le_of_lt h (hb c hc)

/-- Below every listed address a memory reads as unlisted. -/
theorem read_of_above {b a : Nat} {m : Memory} (h : above b m = true) (ha : a ≤ b) :
    read m a = Config.unlistedWord := by
  induction m with
  | nil => rfl
  | cons c m ih =>
    obtain ⟨c, w⟩ := c
    obtain ⟨hc, hm⟩ := above_cons.mp h
    rw [read_cons, if_neg (by omega), ih hm]

/-- A write leaves every other address alone, whatever the memory. -/
theorem read_write_other (m : Memory) {a b : Nat} (v : Word) (h : b ≠ a) :
    read (write m a v) b = read m b := by
  induction m with
  | nil => unfold write; split <;> simp [read, h]
  | cons c m ih =>
    obtain ⟨c, w⟩ := c
    unfold write
    split
    · split <;> simp [read_cons, h]
    · split
      · subst_vars
        split <;> simp [read_cons, h]
      · simp [read_cons, ih]

/-- The word just written is read back. -/
theorem read_write_same {m : Memory} (hm : wf m = true) (a : Nat) (v : Word) :
    read (write m a v) a = v := by
  induction m with
  | nil => unfold write; split <;> simp_all [read]
  | cons c m ih =>
    obtain ⟨c, w⟩ := c
    obtain ⟨hc, hw, hm'⟩ := wf_cons.mp hm
    unfold write
    split
    · split
      · rename_i hlt hv
        rw [hv, read_cons, if_neg (by omega), read_of_above hc (by omega)]
      · simp [read_cons]
    · split
      · split
        · rename_i hv
          rw [hv, read_of_above hc (by omega)]
        · simp [read_cons]
      · rw [read_cons, if_neg (by assumption), ih hm']

/-- One rule for both: a read after a write. -/
theorem read_write {m : Memory} (hm : wf m = true) (a b : Nat) (v : Word) :
    read (write m a v) b = if b = a then v else read m b := by
  split
  · subst_vars; exact read_write_same hm _ v
  · exact read_write_other m v (by assumption)

theorem above_write {m : Memory} {a b : Nat} (v : Word) (h : above b m = true) (hab : b < a) :
    above b (write m a v) = true := by
  induction m with
  | nil => unfold write; split <;> simp [above, hab]
  | cons c m ih =>
    obtain ⟨c, w⟩ := c
    obtain ⟨hc, hm⟩ := above_cons.mp h
    unfold write
    split
    · split
      · exact h
      · exact above_cons.mpr ⟨hab, h⟩
    · split
      · split
        · exact hm
        · exact above_cons.mpr ⟨hab, hm⟩
      · exact above_cons.mpr ⟨hc, ih hm⟩

/-- A write keeps the canonical form. -/
theorem wf_write {m : Memory} (hm : wf m = true) (a : Nat) (v : Word) : wf (write m a v) = true := by
  induction m with
  | nil => unfold write; split <;> simp_all [wf, above]
  | cons c m ih =>
    obtain ⟨c, w⟩ := c
    obtain ⟨hc, hw, hm'⟩ := wf_cons.mp hm
    unfold write
    split
    · split
      · exact hm
      · exact wf_cons.mpr ⟨above_cons.mpr ⟨by assumption, above_trans (by omega) hc⟩, by assumption, hm⟩
    · split
      · split
        · exact hm'
        · subst_vars; exact wf_cons.mpr ⟨hc, by assumption, hm'⟩
      · exact wf_cons.mpr ⟨above_write v hc (by omega), hw, ih hm'⟩

@[simp] theorem within_nil (n : Nat) : within [] n = true := rfl

theorem within_cons {c : Nat} {w : Word} {m : Memory} {n : Nat} :
    within ((c, w) :: m) n = true ↔ c < n ∧ within m n = true := by
  simp [within]

/-- A write inside the extent keeps a memory inside it. -/
theorem within_write {m : Memory} {a n : Nat} (v : Word) (hm : within m n = true) (ha : a < n) :
    within (write m a v) n = true := by
  induction m with
  | nil => unfold write; split <;> simp [within, ha]
  | cons c m ih =>
    obtain ⟨c, w⟩ := c
    obtain ⟨hc, hm'⟩ := within_cons.mp hm
    unfold write
    split
    · split
      · exact hm
      · exact within_cons.mpr ⟨ha, hm⟩
    · split
      · split
        · exact hm'
        · exact within_cons.mpr ⟨ha, hm'⟩
      · exact within_cons.mpr ⟨hc, ih hm'⟩

/-- Restricting to an extent keeps the canonical form. -/
theorem wf_restrict {m : Memory} (n : Nat) (hm : wf m = true) : wf (restrict m n) = true := by
  induction m with
  | nil => rfl
  | cons c m ih =>
    obtain ⟨c, w⟩ := c
    obtain ⟨hc, hw, hm'⟩ := wf_cons.mp hm
    have hc' : above c (restrict m n) = true := by
      simp only [above, restrict, List.all_eq_true, List.mem_filter, decide_eq_true_eq] at *
      exact fun d hd => hc d hd.1
    unfold restrict
    rw [List.filter_cons]
    split
    · exact wf_cons.mpr ⟨hc', hw, ih hm'⟩
    · exact ih hm'

theorem within_restrict (m : Memory) (n : Nat) : within (restrict m n) n = true := by
  simp [within, restrict]

/-- Inside the extent a restricted memory reads as the whole one. -/
theorem read_restrict (m : Memory) {a n : Nat} (h : a < n) : read (restrict m n) a = read m a := by
  induction m with
  | nil => rfl
  | cons c m ih =>
    obtain ⟨c, w⟩ := c
    unfold restrict at *
    rw [List.filter_cons]
    split
    · rw [read_cons, read_cons, ih]
    · rename_i hc
      rw [ih, read_cons, if_neg]
      simp only [decide_eq_true_eq] at hc
      omega

end Sys2Proof.Machine.Memory
end

