-- ==== Sys2Proof/Laws/State.lean ====
section
/-! SUPPORT. One lemma per field for each named update of the state: taking a fatal error, reset, loading a
program word. -/

namespace Sys2Proof.Machine

/-! ## `abort` -/

@[simp] theorem abort_x (e : FatalError) (c : CycleCount) (s now : State) : (abort e c s now).x = now.x := rfl
@[simp] theorem abort_pc (e : FatalError) (c : CycleCount) (s now : State) : (abort e c s now).pc = s.pc := rfl
@[simp] theorem abort_ifid (e : FatalError) (c : CycleCount) (s now : State) : (abort e c s now).ifid = s.ifid := rfl
@[simp] theorem abort_idex (e : FatalError) (c : CycleCount) (s now : State) : (abort e c s now).idex = s.idex := rfl
@[simp] theorem abort_exmem (e : FatalError) (c : CycleCount) (s now : State) : (abort e c s now).exmem = s.exmem := rfl
@[simp] theorem abort_memwb (e : FatalError) (c : CycleCount) (s now : State) : (abort e c s now).memwb = s.memwb := rfl
@[simp] theorem abort_dmem (e : FatalError) (c : CycleCount) (s now : State) : (abort e c s now).dmem = now.dmem := rfl
@[simp] theorem abort_cycle (e : FatalError) (c : CycleCount) (s now : State) : (abort e c s now).cycle = c := rfl
@[simp] theorem abort_status (e : FatalError) (c : CycleCount) (s now : State) : (abort e c s now).status = .error e := rfl
@[simp] theorem abort_launch (e : FatalError) (c : CycleCount) (s now : State) : (abort e c s now).launch = s.launch := rfl
@[simp] theorem abort_rst (e : FatalError) (c : CycleCount) (s now : State) : (abort e c s now).rst = s.rst := rfl

/-! ## `State.resetOf` -/

@[simp] theorem resetOf_x (l : Launch) : (State.resetOf l).x = l.initRegs := rfl
@[simp] theorem resetOf_pc (l : Launch) : (State.resetOf l).pc = 0#32 := rfl
@[simp] theorem resetOf_ifid (l : Launch) : (State.resetOf l).ifid = .empty := rfl
@[simp] theorem resetOf_idex (l : Launch) : (State.resetOf l).idex = .empty := rfl
@[simp] theorem resetOf_exmem (l : Launch) : (State.resetOf l).exmem = .empty := rfl
@[simp] theorem resetOf_memwb (l : Launch) : (State.resetOf l).memwb = .empty := rfl
@[simp] theorem resetOf_dmem (l : Launch) : (State.resetOf l).dmem = l.initMem.restrict l.memWords := rfl
@[simp] theorem resetOf_cycle (l : Launch) : (State.resetOf l).cycle = 0#64 := rfl
@[simp] theorem resetOf_status (l : Launch) : (State.resetOf l).status = .running := rfl
@[simp] theorem resetOf_launch (l : Launch) : (State.resetOf l).launch = l := rfl
@[simp] theorem resetOf_rst (l : Launch) : (State.resetOf l).rst = false := rfl

/-- `State.reset` is the reset state of the launch in which nothing was loaded. -/
theorem reset_eq_resetOf : State.reset = State.resetOf Launch.unloaded := rfl

/-! ## `State.withProgramWord` -/

@[simp] theorem withProgramWord_x (s : State) (nbits w : Nat) : (s.withProgramWord nbits w).x = s.x := rfl
@[simp] theorem withProgramWord_pc (s : State) (nbits w : Nat) : (s.withProgramWord nbits w).pc = s.pc := rfl
@[simp] theorem withProgramWord_ifid (s : State) (nbits w : Nat) : (s.withProgramWord nbits w).ifid = .empty := rfl
@[simp] theorem withProgramWord_idex (s : State) (nbits w : Nat) : (s.withProgramWord nbits w).idex = .empty := rfl
@[simp] theorem withProgramWord_exmem (s : State) (nbits w : Nat) : (s.withProgramWord nbits w).exmem = .empty := rfl
@[simp] theorem withProgramWord_memwb (s : State) (nbits w : Nat) : (s.withProgramWord nbits w).memwb = s.memwb := rfl
@[simp] theorem withProgramWord_dmem (s : State) (nbits w : Nat) : (s.withProgramWord nbits w).dmem = s.dmem := rfl
@[simp] theorem withProgramWord_cycle (s : State) (nbits w : Nat) : (s.withProgramWord nbits w).cycle = s.cycle := rfl
@[simp] theorem withProgramWord_status (s : State) (nbits w : Nat) : (s.withProgramWord nbits w).status = .running := rfl
@[simp] theorem withProgramWord_launch (s : State) (nbits w : Nat) : (s.withProgramWord nbits w).launch =
    { s.launch with
      prog := s.launch.prog.write s.pc.toNat (BitVec.ofNat 32 (w % 2 ^ nbits))
      progLen := max s.launch.progLen (s.pc.toNat + 1) } := rfl
@[simp] theorem withProgramWord_rst (s : State) (nbits w : Nat) : (s.withProgramWord nbits w).rst = false := rfl

/-! ## `wbStage`: WB changes the registers and MEM/WB, and nothing else -/

@[simp] theorem wbStage_pc (s : State) : (wbStage s).pc = s.pc := by
  unfold wbStage; split <;> rfl
@[simp] theorem wbStage_ifid (s : State) : (wbStage s).ifid = s.ifid := by
  unfold wbStage; split <;> rfl
@[simp] theorem wbStage_idex (s : State) : (wbStage s).idex = s.idex := by
  unfold wbStage; split <;> rfl
@[simp] theorem wbStage_exmem (s : State) : (wbStage s).exmem = s.exmem := by
  unfold wbStage; split <;> rfl
@[simp] theorem wbStage_dmem (s : State) : (wbStage s).dmem = s.dmem := by
  unfold wbStage; split <;> rfl
@[simp] theorem wbStage_cycle (s : State) : (wbStage s).cycle = s.cycle := by
  unfold wbStage; split <;> rfl
@[simp] theorem wbStage_status (s : State) : (wbStage s).status = s.status := by
  unfold wbStage; split <;> rfl
@[simp] theorem wbStage_launch (s : State) : (wbStage s).launch = s.launch := by
  unfold wbStage; split <;> rfl
@[simp] theorem wbStage_rst (s : State) : (wbStage s).rst = s.rst := by
  unfold wbStage; split <;> rfl
@[simp] theorem wbStage_memwb (s : State) : (wbStage s).memwb = .empty := by
  unfold wbStage; split <;> simp_all

/-- The register file after WB. -/
theorem wbStage_x (s : State) :
    (wbStage s).x = match s.memwb with | .empty => s.x | .full m => writeBack s.x m.result := by
  unfold wbStage; split <;> simp_all

/-! ## What reads only the launch -/

@[simp] theorem hasInstr_abort (e : FatalError) (c : CycleCount) (s now : State) (k : Word) :
    (abort e c s now).hasInstr k = s.hasInstr k := rfl
@[simp] theorem progWord_abort (e : FatalError) (c : CycleCount) (s now : State) (k : Word) :
    (abort e c s now).progWord k = s.progWord k := rfl
@[simp] theorem inExtent_abort (e : FatalError) (c : CycleCount) (s now : State) (a : Word) :
    (abort e c s now).inExtent a = s.inExtent a := rfl
@[simp] theorem inExtent_wbStage (s : State) (a : Word) : (wbStage s).inExtent a = s.inExtent a := by
  simp [State.inExtent]
@[simp] theorem hasInstr_wbStage (s : State) (k : Word) : (wbStage s).hasInstr k = s.hasInstr k := by
  simp [State.hasInstr]
@[simp] theorem progWord_wbStage (s : State) (k : Word) : (wbStage s).progWord k = s.progWord k := by
  simp [State.progWord]

end Sys2Proof.Machine
end

