-- ==== Sys2Proof/Laws/Ops.lean ====
section
/-! SUPPORT. What each shared operation can do, said once: the register ports, the latch write, MEM, WB, and an
instruction on its own. -/

namespace Sys2Proof.Machine

/-! ## Register ports -/

@[simp] theorem readReg_zero (x : RegFile) : readReg x 0#5 = 0#32 := rfl

theorem readReg_of_ne {x : RegFile} {r : RegIdx} (h : r ≠ 0#5) : readReg x r = x[r.toNat] := by
  simp [readReg, h]

@[simp] theorem writePort_zero (x : RegFile) (v : Word) : writePort x 0#5 v = x := rfl

/-- A read after a write through the write-back port. -/
theorem readReg_writePort (x : RegFile) (d r : RegIdx) (v : Word) :
    readReg (writePort x d v) r = if r = d ∧ d ≠ 0#5 then v else readReg x r := by
  unfold readReg writePort
  by_cases hr : r = 0#5
  · subst hr
    by_cases hd : d = 0#5
    · simp [hd]
    · simp [Ne.symm hd]
  · by_cases hd : d = 0#5
    · simp [hd]
    · have hne : d.toNat = r.toNat ↔ r = d :=
        ⟨fun h => (BitVec.eq_of_toNat_eq h).symm, fun h => by rw [h]⟩
      simp only [hr, hd, if_false, ne_eq, not_false_eq_true, and_true]
      rw [Vector.getElem_set]
      simp only [hne]

/-! ## Extents -/

theorem inExtent_iff {s : State} {a : Word} : s.inExtent a = true ↔ a.toNat < s.launch.memWords := by
  simp only [State.inExtent, decide_eq_true_eq]

theorem inExtent_false_iff {s : State} {a : Word} :
    s.inExtent a = false ↔ s.launch.memWords ≤ a.toNat := by
  simp only [State.inExtent, decide_eq_false_iff_not, Nat.not_lt]

theorem hasInstr_iff {s : State} {k : Word} : s.hasInstr k = true ↔ k.toNat < s.launch.progLen := by
  simp only [State.hasInstr, decide_eq_true_eq]

theorem hasInstr_false_iff {s : State} {k : Word} :
    s.hasInstr k = false ↔ s.launch.progLen ≤ k.toNat := by
  simp only [State.hasInstr, decide_eq_false_iff_not, Nat.not_lt]

/-! ## Latches -/

@[simp] theorem put_empty {α : Type} (p : α) : Latch.put .empty p = .ok (.full p) := rfl

@[simp] theorem put_full {α : Type} (q p : α) : Latch.put (.full q) p = .error .latchOccupied := rfl

/-! ## A stage's outcome -/

@[simp] theorem afterStage_ok (c : CycleCount) (s now t : State)
    (k : State → Host.Outcome State Fault Refusal) : afterStage c s now (.ok t) k = k t := rfl

@[simp] theorem afterStage_fatal (c : CycleCount) (s now : State) (e : FatalError)
    (k : State → Host.Outcome State Fault Refusal) :
    afterStage c s now (.error (.fatal e)) k = .next (abort e c s now) := rfl

@[simp] theorem afterStage_breach (c : CycleCount) (s now : State) (b : Breach)
    (k : State → Host.Outcome State Fault Refusal) :
    afterStage c s now (.error (.breach b)) k = .fault (.internalInvariant b) := rfl

/-! ## MEM -/

/-- What MEM answers, by variant. -/
theorem memAccess_cases {s : State} {e : Executed} {dmem : Memory} {m : MemDone}
    (h : memAccess s e = .ok (dmem, m)) :
    m.ctrl = e.ctrl ∧ m.pc = e.pc ∧
      ((∃ op d v, e.result = .aluResult op d v ∧ m.result = .aluPass op d v ∧ dmem = s.dmem) ∨
       (∃ t g, e.result = .branchOutcome t g ∧ m.result = .noWriteBack ∧ dmem = s.dmem) ∨
       (∃ d a, e.result = .loadAddr d a ∧ s.inExtent a = true ∧
          m.result = .loaded d (memRead s a) ∧ dmem = s.dmem) ∨
       (∃ a r v, e.result = .storeAddr a r v ∧ s.inExtent a = true ∧
          m.result = .noWriteBack ∧ dmem = memWrite s a v)) := by
  obtain ⟨result, ctrl, pc⟩ := e
  cases result <;> simp only [memAccess] at h
  case aluResult => cases h; simp
  case branchOutcome => cases h; simp
  all_goals
    split at h
    · cases h; simp_all
    · cases h

/-- MEM raises AddressError exactly for a load or store outside the extent. -/
theorem memAccess_error {s : State} {e : Executed} {err : FatalError}
    (h : memAccess s e = .error err) :
    ∃ a, err = .addressError a e.pc ∧ s.inExtent a = false ∧
      ((∃ d, e.result = .loadAddr d a) ∨ ∃ r v, e.result = .storeAddr a r v) := by
  obtain ⟨result, ctrl, pc⟩ := e
  cases result <;> simp only [memAccess] at h
  case aluResult => cases h
  case branchOutcome => cases h
  all_goals
    split at h
    · cases h
    · cases h; simp_all

/-- MEM answers from the data memory and the extent alone. -/
theorem memAccess_congr {s t : State} (e : Executed) (hd : t.dmem = s.dmem)
    (hl : t.launch = s.launch) : memAccess t e = memAccess s e := by
  obtain ⟨result, ctrl, pc⟩ := e
  cases result <;> simp [memAccess, memRead, memWrite, State.inExtent, hd, hl]

/-- MEM keeps the canonical form of the data memory and its extent. -/
theorem memAccess_dmem {s : State} {e : Executed} {dmem : Memory} {m : MemDone}
    (h : memAccess s e = .ok (dmem, m)) (hs : dmemOk s = true) :
    (Memory.wf dmem && Memory.within dmem s.launch.memWords) = true := by
  simp only [dmemOk, Bool.and_eq_true] at hs ⊢
  obtain ⟨-, -, h | h | h | h⟩ := memAccess_cases h
  · obtain ⟨_, _, _, -, -, rfl⟩ := h; exact hs
  · obtain ⟨_, _, -, -, rfl⟩ := h; exact hs
  · obtain ⟨_, _, -, -, -, rfl⟩ := h; exact hs
  · obtain ⟨a, _, v, -, ha, -, rfl⟩ := h
    simp only [State.inExtent, decide_eq_true_eq] at ha
    exact ⟨Memory.wf_write hs.1 _ _, Memory.within_write _ hs.2 ha⟩

/-! ## An instruction on its own -/

/-- Everything `finish` can do. -/
theorem finish_cases (e : Executed) (next : Word) (s : State) :
    (∃ dmem m, memAccess s e = .ok (dmem, m) ∧
      finish e next s = { s with x := writeBack s.x m.result, dmem := dmem, pc := next }) ∨
    (∃ err, memAccess s e = .error err ∧ finish e next s = abort err s.cycle s s) := by
  unfold finish
  cases memAccess s e with
  | ok p => exact .inl ⟨p.1, p.2, rfl, rfl⟩
  | error err => exact .inr ⟨err, rfl, rfl⟩

theorem finish_ok {e : Executed} {s : State} {dmem : Memory} {m : MemDone}
    (h : memAccess s e = .ok (dmem, m)) (next : Word) :
    finish e next s = { s with x := writeBack s.x m.result, dmem := dmem, pc := next } := by
  simp only [finish, h]

theorem finish_error {e : Executed} {s : State} {err : FatalError}
    (h : memAccess s e = .error err) (next : Word) : finish e next s = abort err s.cycle s s := by
  simp only [finish, h]

/-- `finish` never touches the latches, the counter, the launch or the reset pin. -/
theorem finish_frame (e : Executed) (next : Word) (s : State) :
    (finish e next s).ifid = s.ifid ∧ (finish e next s).idex = s.idex ∧
      (finish e next s).exmem = s.exmem ∧ (finish e next s).memwb = s.memwb ∧
      (finish e next s).cycle = s.cycle ∧ (finish e next s).launch = s.launch ∧
      (finish e next s).rst = s.rst := by
  obtain ⟨_, _, -, h⟩ | ⟨_, -, h⟩ := finish_cases e next s <;> simp [h]

end Sys2Proof.Machine
end

