-- ==== Sys2Proof/Laws/Cycle.lean ====
section
/-! SUPPORT. The cycle as one equation over the state at its start (40_pipeline.md R113), with the working
latches gone: what each stage puts into its latch, and what the cycle answers.  Later proofs cite
`runStages_eq` and never unfold a stage. -/

namespace Sys2Proof.Machine

/-- What MEM makes of EX/MEM: the data memory and MEM/WB after it (R118). -/
def memOut (s : State) : Except FatalError (Memory × Latch MemDone) :=
  match s.exmem with
  | .empty => .ok (s.dmem, .empty)
  | .full e =>
    match memAccess s e with
    | .error err => .error err
    | .ok (dmem, m) => .ok (dmem, .full m)

/-- What EX makes of ID/EX: EX/MEM after it (R117). -/
def exOut (s : State) : Except Breach (Latch Executed) :=
  match s.idex with
  | .empty => .ok .empty
  | .full d =>
    match exResult s (wbStage s).x d with
    | .error b => .error b
    | .ok r => .ok (.full ⟨r, d.ctrl, d.pc⟩)

/-- What ID makes of IF/ID: ID/EX after it (R120). -/
def idOut (s : State) (redirect : Option Word) (stall : Bool) : Except FatalError (Latch Decoded) :=
  match redirect with
  | some _ => .ok .empty
  | none =>
    if stall then .ok .empty
    else
      match s.ifid with
      | .empty => .ok .empty
      | .full f =>
        match decode f.word with
        | .illegal _ => .error (.formatError f.word f.pc)
        | .legal i => .ok (.full ⟨i, ctrlOf i, f.pc⟩)

/-- What IF makes of an index it may fetch at: IF/ID and `pc` after it (R121). -/
def fetchAt (s : State) (f : Word) : Latch Fetched × Word :=
  if s.hasInstr f then (.full ⟨s.progWord f, f⟩, f + 1#32) else (.empty, f)

/-- IF/ID and `pc` after the cycle (R121, R131). -/
def ifOut (s : State) (redirect : Option Word) (stall : Bool) : Latch Fetched × Word :=
  if stall then (s.ifid, s.pc) else fetchAt s (redirect.getD s.pc)

/-- The state after a cycle that raised nothing (R114). -/
def cycleDone (s : State) (dmem : Memory) (memwb : Latch MemDone) (exmem : Latch Executed)
    (idex : Latch Decoded) (fetch : Latch Fetched × Word) : State :=
  { s with
    x := (wbStage s).x, dmem := dmem, memwb := memwb, exmem := exmem, idex := idex
    ifid := fetch.1, pc := fetch.2, cycle := s.cycle + 1#64 }

/-- MEM on the working state, in terms of `memOut`. -/
theorem memStage_eq (s : State) :
    memStage s (wbStage s) =
      match memOut s with
      | .error e => .error (.fatal e)
      | .ok (dmem, l) => .ok { wbStage s with dmem := dmem, exmem := .empty, memwb := l } := by
  unfold memStage memOut
  cases hx : s.exmem with
  | empty =>
    have h1 := wbStage_exmem s
    have h2 := wbStage_memwb s
    have h3 := wbStage_dmem s
    rw [hx] at h1
    generalize wbStage s = w at *
    cases w
    simp_all
  | full e =>
    simp only [memAccess_congr e (wbStage_dmem s) (wbStage_launch s)]
    cases memAccess s e with
    | error err => rfl
    | ok p => simp

/-- The working cycle as one equation.  The latch-write guard of R206 has gone: it never fires. -/
theorem runStages_eq (s : State) :
    runStages s =
      match memOut s with
      | .error e => .next (abort e (s.cycle + 1#64) s (wbStage s))
      | .ok (dmem, memwb) =>
        match exOut s with
        | .error b => .fault (.internalInvariant b)
        | .ok exmem =>
          match stallSignal s with
          | .error b => .fault (.internalInvariant b)
          | .ok stall =>
            match idOut s (redirectOf exmem) stall with
            | .error e => .next (abort e (s.cycle + 1#64) s { wbStage s with dmem := dmem })
            | .ok idex =>
              .next (cycleDone s dmem memwb exmem idex (ifOut s (redirectOf exmem) stall)) := by
  unfold runStages
  simp only [memStage_eq]
  cases memOut s with
  | error e => simp
  | ok p =>
    obtain ⟨dmem, l⟩ := p
    simp only [afterStage_ok]
    have hex : exStage s { wbStage s with dmem := dmem, exmem := .empty, memwb := l } =
        match exOut s with
        | .error b => .error (.breach b)
        | .ok lx => .ok { wbStage s with dmem := dmem, exmem := lx, idex := .empty, memwb := l } := by
      unfold exStage exOut
      cases hd : s.idex with
      | empty =>
        have h1 := wbStage_idex s
        rw [hd] at h1
        simp [← h1]
      | full d => cases hr : exResult s (wbStage s).x d <;> simp [hr]
    rw [hex]
    cases exOut s with
    | error b => simp
    | ok lx =>
      simp only [afterStage_ok]
      cases stallSignal s with
      | error b => rfl
      | ok st =>
        unfold idStage idOut ifStage ifOut fetchAt cycleDone
        cases hr : redirectOf lx with
        | some g =>
          cases st <;> simp [hr]
          split <;> simp [State.hasInstr, State.progWord] at *
        | none =>
          cases st with
          | true => simp
          | false =>
            cases hi : s.ifid with
            | empty =>
              have h1 := wbStage_ifid s
              rw [hi] at h1
              simp [hr]
              split <;> simp_all
            | full f =>
              simp only
              cases decode f.word with
              | illegal w => simp [abort]
              | legal i =>
                simp [hr]
                split <;> simp_all

section

variable (s : State) (dmem : Memory) (memwb : Latch MemDone) (exmem : Latch Executed)
  (idex : Latch Decoded) (fetch : Latch Fetched × Word)

@[simp] theorem cycleDone_x : (cycleDone s dmem memwb exmem idex fetch).x = (wbStage s).x := rfl
@[simp] theorem cycleDone_dmem : (cycleDone s dmem memwb exmem idex fetch).dmem = dmem := rfl
@[simp] theorem cycleDone_memwb : (cycleDone s dmem memwb exmem idex fetch).memwb = memwb := rfl
@[simp] theorem cycleDone_exmem : (cycleDone s dmem memwb exmem idex fetch).exmem = exmem := rfl
@[simp] theorem cycleDone_idex : (cycleDone s dmem memwb exmem idex fetch).idex = idex := rfl
@[simp] theorem cycleDone_ifid : (cycleDone s dmem memwb exmem idex fetch).ifid = fetch.1 := rfl
@[simp] theorem cycleDone_pc : (cycleDone s dmem memwb exmem idex fetch).pc = fetch.2 := rfl
@[simp] theorem cycleDone_cycle : (cycleDone s dmem memwb exmem idex fetch).cycle = s.cycle + 1#64 := rfl
@[simp] theorem cycleDone_status : (cycleDone s dmem memwb exmem idex fetch).status = s.status := rfl
@[simp] theorem cycleDone_launch : (cycleDone s dmem memwb exmem idex fetch).launch = s.launch := rfl
@[simp] theorem cycleDone_rst : (cycleDone s dmem memwb exmem idex fetch).rst = s.rst := rfl
@[simp] theorem hasInstr_cycleDone (k : Word) :
    (cycleDone s dmem memwb exmem idex fetch).hasInstr k = s.hasInstr k := rfl
@[simp] theorem progWord_cycleDone (k : Word) :
    (cycleDone s dmem memwb exmem idex fetch).progWord k = s.progWord k := rfl
@[simp] theorem inExtent_cycleDone (k : Word) :
    (cycleDone s dmem memwb exmem idex fetch).inExtent k = s.inExtent k := rfl

end

/-- Whether an instruction is fetched at `k` or not, `k` is the front of the pipeline afterwards. -/
theorem frontIndex_fetchAt (s : State) (dmem : Memory) (memwb : Latch MemDone) (exmem : Latch Executed)
    (idex : Latch Decoded) (k : Word) :
    (cycleDone s dmem memwb exmem idex (fetchAt s k)).frontIndex = k := by
  cases hk : s.hasInstr k <;> simp [State.frontIndex, fetchAt, hk]

/-- A stall leaves the front of the pipeline where it was. -/
theorem frontIndex_held (s : State) (dmem : Memory) (memwb : Latch MemDone) (exmem : Latch Executed)
    (idex : Latch Decoded) :
    (cycleDone s dmem memwb exmem idex (s.ifid, s.pc)).frontIndex = s.frontIndex := rfl

/-- Everything ID can do (R120). -/
theorem idOut_cases (s : State) (redirect : Option Word) (stall : Bool) :
    (idOut s redirect stall = .ok .empty ∧ (redirect ≠ none ∨ stall = true ∨ s.ifid = .empty)) ∨
    (redirect = none ∧ stall = false ∧ ∃ f, s.ifid = .full f ∧
      ((∃ why, decode f.word = .illegal why ∧
          idOut s redirect stall = .error (.formatError f.word f.pc)) ∨
       (∃ i, decode f.word = .legal i ∧ idOut s redirect stall = .ok (.full ⟨i, ctrlOf i, f.pc⟩)))) := by
  unfold idOut
  cases redirect with
  | some g => simp
  | none =>
    cases stall with
    | true => simp
    | false =>
      cases s.ifid with
      | empty => simp
      | full f => cases h : decode f.word <;> simp [h]

end Sys2Proof.Machine
end

