-- ==== Sys2Proof/Laws/Exec.lean ====
section
/-! SUPPORT. Each instruction on its own as one equation, so that no later proof unfolds `runAlone`. -/

namespace Sys2Proof.Machine

theorem exec_add (rd rs rt : RegIdx) (s : State) :
    exec (.add rd rs rt) s =
      .next { s with
        x := writePort s.x rd (readReg s.x rs + readReg s.x rt), pc := s.pc + 1#32 } := rfl

theorem exec_sub (rd rs rt : RegIdx) (s : State) :
    exec (.sub rd rs rt) s =
      .next { s with
        x := writePort s.x rd (readReg s.x rs - readReg s.x rt), pc := s.pc + 1#32 } := rfl

theorem exec_beq (rs rt : RegIdx) (off : Word) (s : State) :
    exec (.beq rs rt off) s =
      .next { s with
        pc := if readReg s.x rs == readReg s.x rt then s.pc + off else s.pc + 1#32 } := rfl

theorem exec_lw {rt : RegIdx} {off : Word} {rs : RegIdx} {s : State}
    (h : s.inExtent (readReg s.x rs + off) = true) :
    exec (.lw rt off rs) s =
      .next { s with
        x := writePort s.x rt (memRead s (readReg s.x rs + off)), pc := s.pc + 1#32 } := by
  simp [exec, execLw, runAlone, finish, memAccess, exLw, effAddr, h, writeBack]

theorem exec_sw {rt : RegIdx} {off : Word} {rs : RegIdx} {s : State}
    (h : s.inExtent (readReg s.x rs + off) = true) :
    exec (.sw rt off rs) s =
      .next { s with
        dmem := memWrite s (readReg s.x rs + off) (readReg s.x rt), pc := s.pc + 1#32 } := by
  simp [exec, execSw, runAlone, finish, memAccess, exSw, effAddr, h, writeBack]

/-- Every instruction on its own answers a next state: its EX result with plain register reads, finished. -/
theorem exec_eq_finish (i : Instr) (s : State) :
    ∃ r next, exec i s = .next (finish ⟨r, ctrlOf i, s.pc⟩ next s) ∧ exFits i r s.pc = true := by
  cases i <;> exact ⟨_, _, rfl, by simp [exFits, exAdd, exSub, exBeq, exLw, exSw]⟩

end Sys2Proof.Machine
end

