-- ==== Sys2Proof/Laws/PerInstr.lean ====
section
/-! SUPPORT. Statements about every instruction as syntax, one lemma per constructor: the control signals that
decisions read, and the row of the opcode map its encoding lies in. -/

namespace Sys2Proof.Laws

namespace CtrlDecides

open Sys2Proof.Machine

/-- RegWrite and MemRead, the only signals a rule reads for a decision, are never `X` (10_state.md R33):
RegWrite says whether there is a destination, MemRead whether the instruction is an LW. -/
def Statement (i : Instr) : Prop :=
  (ctrlOf i).regWrite.asBool = .ok (destOf i).isSome ∧
    (ctrlOf i).memRead.asBool = .ok (match i with | .lw _ _ _ => true | _ => false)

theorem add (rd rs rt : RegIdx) : Statement (.add rd rs rt) := ⟨rfl, rfl⟩
theorem sub (rd rs rt : RegIdx) : Statement (.sub rd rs rt) := ⟨rfl, rfl⟩
theorem beq (rs rt : RegIdx) (off : Word) : Statement (.beq rs rt off) := ⟨rfl, rfl⟩
theorem lw (rt : RegIdx) (off : Word) (rs : RegIdx) : Statement (.lw rt off rs) := ⟨rfl, rfl⟩
theorem sw (rt : RegIdx) (off : Word) (rs : RegIdx) : Statement (.sw rt off rs) := ⟨rfl, rfl⟩

end CtrlDecides

namespace SourcesAreOperands

open Sys2Proof.Machine

/-- The registers the hazard comparator takes as sources are those of operands A and B (30_encoding.md
R92; 40_pipeline.md R117, R128). -/
def Statement (i : Instr) : Prop := srcsOf i = srcA i :: (srcB i).toList

theorem add (rd rs rt : RegIdx) : Statement (.add rd rs rt) := rfl
theorem sub (rd rs rt : RegIdx) : Statement (.sub rd rs rt) := rfl
theorem beq (rs rt : RegIdx) (off : Word) : Statement (.beq rs rt off) := rfl
theorem lw (rt : RegIdx) (off : Word) (rs : RegIdx) : Statement (.lw rt off rs) := rfl
theorem sw (rt : RegIdx) (off : Word) (rs : RegIdx) : Statement (.sw rt off rs) := rfl

end SourcesAreOperands

end Sys2Proof.Laws
end

