-- ==== Sys2Proof/Laws/Step.lean ====
section
/-! SUPPORT. Everything a step can do, said once: it waits, completes the run, aborts in MEM, aborts in ID, or
runs a whole cycle. -/

namespace Sys2Proof.Machine

/-- A step outside a running cycle changes at most the status. -/
theorem step_idle {s : State} (h : s.runsCycle = false) :
    step s = .next (if s.rst = false ∧ s.status = .running then { s with status := .done } else s) := by
  unfold step clockEdge
  cases hr : s.rst with
  | true => simp
  | false =>
    cases hs : s.status with
    | done => simp
    | error e => simp
    | running =>
      have : completes s = true := by simpa [State.runsCycle, hr, hs] using h
      simp [this]

/-- A running cycle goes through the stages. -/
theorem step_runs {s : State} (h : s.runsCycle = true) : step s = runStages s := by
  simp only [State.runsCycle, Bool.and_eq_true, Bool.not_eq_true', beq_iff_eq] at h
  simp [step, clockEdge, h.1.1, h.1.2, h.2]

/-- What a running cycle answers when it answers a next state. -/
theorem runStages_cases {s t : State} (h : runStages s = .next t) :
    (∃ e, memOut s = .error e ∧ t = abort e (s.cycle + 1#64) s (wbStage s)) ∨
    (∃ dmem memwb exmem stall, memOut s = .ok (dmem, memwb) ∧ exOut s = .ok exmem ∧
      stallSignal s = .ok stall ∧
      ((∃ e, idOut s (redirectOf exmem) stall = .error e ∧
          t = abort e (s.cycle + 1#64) s { wbStage s with dmem := dmem }) ∨
       (∃ idex, idOut s (redirectOf exmem) stall = .ok idex ∧
          t = cycleDone s dmem memwb exmem idex (ifOut s (redirectOf exmem) stall)))) := by
  rw [runStages_eq] at h
  cases hm : memOut s with
  | error e => simp only [hm, Host.Outcome.next.injEq] at h; exact .inl ⟨e, rfl, h.symm⟩
  | ok p =>
    obtain ⟨dmem, memwb⟩ := p
    simp only [hm] at h
    cases hx : exOut s with
    | error b => simp [hx] at h
    | ok exmem =>
      simp only [hx] at h
      cases hst : stallSignal s with
      | error b => simp [hst] at h
      | ok stall =>
        simp only [hst] at h
        refine .inr ⟨dmem, memwb, exmem, stall, rfl, rfl, rfl, ?_⟩
        cases hi : idOut s (redirectOf exmem) stall with
        | error e => simp only [hi, Host.Outcome.next.injEq] at h; exact .inl ⟨e, rfl, h.symm⟩
        | ok idex => simp only [hi, Host.Outcome.next.injEq] at h; exact .inr ⟨idex, rfl, h.symm⟩

/-- Whatever a step answers, the launch and the reset pin stay. -/
theorem step_launch {s t : State} (h : step s = .next t) : t.launch = s.launch ∧ t.rst = s.rst := by
  cases hc : s.runsCycle with
  | false =>
    rw [step_idle hc] at h
    cases h
    split <;> exact ⟨rfl, rfl⟩
  | true =>
    rw [step_runs hc] at h
    obtain ⟨e, -, rfl⟩ | ⟨_, _, _, _, -, -, -, ⟨e, -, rfl⟩ | ⟨_, -, rfl⟩⟩ := runStages_cases h <;>
      exact ⟨rfl, rfl⟩

/-- MEM, when it raises nothing, gives MEM/WB its payload with the control signals and the index of
EX/MEM's. -/
theorem memOut_latch {s : State} {dmem : Memory} {l : Latch MemDone} (h : memOut s = .ok (dmem, l)) :
    (s.exmem = .empty ∧ l = .empty ∧ dmem = s.dmem) ∨
    (∃ e m, s.exmem = .full e ∧ l = .full m ∧ memAccess s e = .ok (dmem, m)) := by
  unfold memOut at h
  cases hx : s.exmem with
  | empty => simp only [hx, Except.ok.injEq, Prod.mk.injEq] at h; exact .inl ⟨rfl, h.2.symm, h.1.symm⟩
  | full e =>
    simp only [hx] at h
    cases hm : memAccess s e with
    | error err => simp [hm] at h
    | ok p =>
      simp only [hm, Except.ok.injEq, Prod.mk.injEq] at h
      exact .inr ⟨e, p.2, rfl, h.2.symm, by rw [← h.1]; exact hm⟩

/-- MEM raises exactly when `memClean` fails. -/
theorem memOut_clean {s : State} : memClean s = true ↔ ∃ p, memOut s = .ok p := by
  unfold memClean memOut
  cases s.exmem with
  | empty => simp
  | full e =>
    obtain ⟨result, ctrl, pc⟩ := e
    cases result with
    | aluResult op d v => simp [memAccess]
    | branchOutcome k g => simp [memAccess]
    | loadAddr d a => simp only [memAccess]; cases s.inExtent a <;> simp
    | storeAddr a r v => simp only [memAccess]; cases s.inExtent a <;> simp

/-- EX, when it breaches nothing, gives EX/MEM the result of the instruction in ID/EX, with its control
signals and its index. -/
theorem exOut_latch {s : State} {l : Latch Executed} (h : exOut s = .ok l) :
    (s.idex = .empty ∧ l = .empty) ∨
    (∃ d r, s.idex = .full d ∧ exResult s (wbStage s).x d = .ok r ∧ l = .full ⟨r, d.ctrl, d.pc⟩) := by
  unfold exOut at h
  cases hx : s.idex with
  | empty => simp only [hx, Except.ok.injEq] at h; exact .inl ⟨rfl, h.symm⟩
  | full d =>
    simp only [hx] at h
    cases hr : exResult s (wbStage s).x d with
    | error b => simp [hr] at h
    | ok r => simp only [hr, Except.ok.injEq] at h; exact .inr ⟨d, r, rfl, hr, h.symm⟩

/-- The result of EX is of the variant of the instruction. -/
theorem exResult_fits {s : State} {x : RegFile} {d : Decoded} {r : ExResult}
    (h : exResult s x d = .ok r) : exFits d.instr r d.pc = true := by
  obtain ⟨i, ctrl, pc⟩ := d
  cases i <;> simp only [exResult] at h <;>
    simp only [bind, Except.bind, pure, Except.pure] at h <;>
    (repeat' (split at h)) <;>
    (first | (cases h; done) | (cases h; simp [exFits, exAdd, exSub, exBeq, exLw, exSw]))

/-- The stall signal reads only the latches ID/EX and IF/ID; where it is up, ID/EX holds an LW whose
destination the word in IF/ID reads. -/
theorem stallSignal_true {s : State} (h : stallSignal s = .ok true) :
    ∃ d f rt off rs, s.idex = .full d ∧ s.ifid = .full f ∧ d.instr = .lw rt off rs ∧
      rt ∈ srcs f.word := by
  unfold stallSignal at h
  split at h
  · rename_i d f hd hf
    simp only [bind, Except.bind, pure, Except.pure] at h
    split at h
    · cases h
    · split at h
      · simp only [Except.ok.injEq, decide_eq_true_eq] at h
        exact ⟨d, f, _, _, _, hd, hf, by assumption, h⟩
      all_goals cases h
  · cases h

end Sys2Proof.Machine
end

