-- ==== Sys2Proof/Laws/Inv.lean ====
section
/-! SUPPORT. What the invariant says of each latch, and what the forwarding unit then answers (40_pipeline.md
R126): no later proof unfolds the invariant's parts or a multiplexer. -/

namespace Sys2Proof.Machine

/-! ## The parts of the invariant -/

theorem inv_iff {s : State} : s.inv = true ↔ s.launch.wf = true ∧ dmemOk s = true ∧ ifidOk s = true ∧
    idexOk s = true ∧ exmemOk s = true ∧ memwbOk s = true ∧ statusOk s = true := by
  simp [State.inv, and_assoc]

theorem ifidOk_full {s : State} {f : Fetched} (h : ifidOk s = true) (hf : s.ifid = .full f) :
    s.hasInstr f.pc = true ∧ f.word = s.progWord f.pc ∧ s.pc = f.pc + 1#32 := by
  simpa [ifidOk, hf, and_assoc] using h

theorem idexOk_full {s : State} {d : Decoded} (h : idexOk s = true) (hd : s.idex = .full d) :
    s.hasInstr d.pc = true ∧ decode (s.progWord d.pc) = .legal d.instr ∧ d.ctrl = ctrlOf d.instr ∧
      s.frontIndex = d.pc + 1#32 := by
  simpa [idexOk, hd, and_assoc] using h

theorem exmemOk_full {s : State} {e : Executed} (h : exmemOk s = true) (he : s.exmem = .full e) :
    s.hasInstr e.pc = true ∧ interlocked e.result s.idex = true ∧
      ∃ i, decode (s.progWord e.pc) = .legal i ∧ e.ctrl = ctrlOf i ∧ exFits i e.result e.pc = true := by
  simp only [exmemOk, he, Bool.and_eq_true, and_assoc] at h
  refine ⟨h.1, h.2.1, ?_⟩
  have h2 := h.2.2
  cases hdec : decode (s.progWord e.pc) with
  | illegal w => simp [hdec] at h2
  | legal i => exact ⟨i, rfl, by simpa [hdec] using h2⟩

theorem memwbOk_full {s : State} {m : MemDone} (h : memwbOk s = true) (hm : s.memwb = .full m) :
    s.hasInstr m.pc = true ∧
      ∃ i, decode (s.progWord m.pc) = .legal i ∧ m.ctrl = ctrlOf i ∧ wbFits i m.result = true := by
  simp only [memwbOk, hm, Bool.and_eq_true] at h
  refine ⟨h.1, ?_⟩
  have h2 := h.2
  cases hdec : decode (s.progWord m.pc) with
  | illegal w => simp [hdec] at h2
  | legal i => exact ⟨i, rfl, by simpa [hdec] using h2⟩

/-- MEM takes a result that fits its instruction to a MemResult that fits it. -/
theorem memAccess_fits {s : State} {e : Executed} {dmem : Memory} {m : MemDone} {i : Instr}
    (h : memAccess s e = .ok (dmem, m)) (hf : exFits i e.result e.pc = true) :
    wbFits i m.result = true := by
  obtain ⟨-, -, ⟨op, d, v, he, hm, -⟩ | ⟨t, g, he, hm, -⟩ | ⟨d, a, he, -, hm, -⟩ |
    ⟨a, r, v, he, -, hm, -⟩⟩ := memAccess_cases h <;> rw [he] at hf <;> rw [hm] <;>
    cases i <;> (try cases op) <;> simp_all [exFits, wbFits]

/-! ## The forwarding unit under the invariant -/

/-- What EX/MEM holds for source `r`: the value of an ADD or SUB that writes it. -/
def exOffer (s : State) (r : RegIdx) : Option Word :=
  match s.exmem with
  | .full ⟨.aluResult _ d v, _, _⟩ => if d ≠ 0#5 ∧ d = r then some v else none
  | _ => none

/-- What MEM/WB holds for source `r`. -/
def wbOffer (s : State) (r : RegIdx) : Option Word :=
  match writtenNow s with
  | some (d, v) => if d ≠ 0#5 ∧ d = r then some v else none
  | none => none

theorem forwardExMem_ok {s : State} {r : RegIdx} (h : exmemOk s = true)
    (hl : ∀ e d a, s.exmem = .full e → e.result = .loadAddr d a → d = r → d = 0#5) :
    forwardExMem s.exmem r = .ok (exOffer s r) := by
  unfold exOffer
  rcases he : s.exmem with _ | e
  · rfl
  · obtain ⟨-, -, i, -, hc, hf⟩ := exmemOk_full h he
    have := hl e
    obtain ⟨res, c, pc⟩ := e
    simp only at hc hf
    subst hc
    cases i <;> cases res <;> first | (simp [exFits] at hf; done) | skip
    all_goals simp [forwardExMem, ctrlOf, Tri.asBool, bind, Except.bind]
    · split <;> rfl
    · split <;> rfl
    · intro h0 hh; exact absurd (this _ _ he rfl hh) h0

theorem forwardMemWb_ok {s : State} (r : RegIdx) (h : memwbOk s = true) :
    forwardMemWb s.memwb r = .ok (wbOffer s r) := by
  unfold wbOffer writtenNow
  rcases he : s.memwb with _ | e
  · rfl
  · obtain ⟨-, i, -, hc, hf⟩ := memwbOk_full h he
    obtain ⟨res, c, pc⟩ := e
    simp only at hc hf
    subst hc
    cases i <;> cases res <;> first | (simp [wbFits] at hf; done) | skip
    all_goals simp [forwardMemWb, ctrlOf, Tri.asBool, bind, Except.bind]
    all_goals split <;> rfl

/-- The multiplexer, where no LW in EX/MEM matches. -/
theorem fwd_ok {s : State} {r : RegIdx} (x : RegFile) (h : exmemOk s = true) (h' : memwbOk s = true)
    (hl : ∀ e d a, s.exmem = .full e → e.result = .loadAddr d a → d = r → d = 0#5) :
    fwd s x r = .ok (((exOffer s r).or (wbOffer s r)).getD (readReg x r)) := by
  simp only [fwd, forward, forwardExMem_ok h hl, forwardMemWb_ok r h', bind, Except.bind, pure, Except.pure]
  cases exOffer s r <;> cases wbOffer s r <;> rfl

/-- The multiplexer, where an LW in EX/MEM matches, breaches (R129). -/
theorem fwd_load {s : State} {r : RegIdx} (x : RegFile) (h : exmemOk s = true) {e : Executed} {a : Word}
    (he : s.exmem = .full e) (hr : e.result = .loadAddr r a) (h0 : r ≠ 0#5) :
    fwd s x r = .error .forwardFromLoad := by
  obtain ⟨-, -, i, -, hc, hf⟩ := exmemOk_full h he
  obtain ⟨res, c, pc⟩ := e
  simp only at hc hf hr
  subst hc hr
  cases i <;> simp [exFits] at hf
  simp [fwd, forward, forwardExMem, he, ctrlOf, Tri.asBool, bind, Except.bind, h0]

/-- The interlock: no LW in EX/MEM writes a source of the instruction in ID/EX. -/
theorem interlock_src {s : State} {d : Decoded} (h : exmemOk s = true) (hd : s.idex = .full d)
    {r : RegIdx} (hr : r ∈ srcsOf d.instr) :
    ∀ e dd a, s.exmem = .full e → e.result = .loadAddr dd a → dd = r → dd = 0#5 := by
  rintro e dd a he hres rfl
  obtain ⟨-, hi, -⟩ := exmemOk_full h he
  simp [interlocked, hres, hd, hr] at hi

/-- A register after WB is what MEM/WB holds for it, or what it was. -/
theorem wb_read (s : State) (r : RegIdx) :
    readReg (wbStage s).x r = (wbOffer s r).getD (readReg s.x r) := by
  have key (d : RegIdx) (v : Word) : readReg (writePort s.x d v) r =
      (if d ≠ 0#5 ∧ d = r then some v else none).getD (readReg s.x r) := by
    rw [readReg_writePort]
    by_cases h2 : d = r
    · subst h2; by_cases h1 : d = 0#5 <;> simp [h1]
    · simp [h2, Ne.symm h2]
  unfold wbOffer writtenNow
  rw [wbStage_x]
  rcases s.memwb with _ | ⟨_ | _ | _, c, pc⟩
  · rfl
  · exact key _ _
  · exact key _ _
  · rfl

/-- A register seen by the instruction in ID/EX is what EX/MEM holds for it, or what it is after WB. -/
theorem older_read {s : State} {r : RegIdx} (hc : memClean s = true)
    (hl : ∀ e d a, s.exmem = .full e → e.result = .loadAddr d a → d = r → d = 0#5) :
    readReg (olderView s).x r = (exOffer s r).getD (readReg (wbStage s).x r) := by
  have key (d : RegIdx) (v : Word) : readReg (writePort (wbStage s).x d v) r =
      (if d ≠ 0#5 ∧ d = r then some v else none).getD (readReg (wbStage s).x r) := by
    rw [readReg_writePort]
    by_cases h2 : d = r
    · subst h2; by_cases h1 : d = 0#5 <;> simp [h1]
    · simp [h2, Ne.symm h2]
  unfold olderView exOffer
  rcases he : s.exmem with _ | ⟨res, c, pc⟩
  · rfl
  · cases res with
    | aluResult op d v => exact key d v
    | loadAddr d a =>
      have hx : s.inExtent a = true := by simpa [memClean, he] using hc
      have := hl _ d a he rfl
      simp only [finish, memAccess, writeBack, inExtent_wbStage, hx, if_true, readReg_writePort]
      by_cases h2 : d = r
      · simp [this h2]
      · simp [Ne.symm h2]
    | storeAddr a q v =>
      have hx : s.inExtent a = true := by simpa [memClean, he] using hc
      simp [finish, memAccess, writeBack, hx]
    | branchOutcome t g => simp [finish, memAccess, writeBack]

/-! ## A whole cycle -/

/-- MEM keeps the data memory canonical and in its extent. -/
theorem memOut_dmem {s : State} {dmem : Memory} {l : Latch MemDone} (hm : memOut s = .ok (dmem, l))
    (hdm : dmemOk s = true) : (Memory.wf dmem && Memory.within dmem s.launch.memWords) = true := by
  obtain ⟨-, -, rfl⟩ | ⟨e, m, -, -, ha⟩ := memOut_latch hm
  · exact hdm
  · exact memAccess_dmem ha hdm

/-- Where the comparator is 0, an LW that leaves ID/EX does not feed the instruction ID decodes; and ID decodes
nothing behind a taken BEQ. -/
theorem interlocked_next {s : State} {d : Decoded} {r : ExResult} {f : Fetched} {i : Instr} {c : Ctrl}
    {pc pc' : Word} (hd : s.idex = .full d) (hctrl : d.ctrl = ctrlOf d.instr) (hf : s.ifid = .full f)
    (hs : stallSignal s = .ok false) (hdec : decode f.word = .legal i)
    (hfit : exFits d.instr r d.pc = true) (hred : redirectOf (.full ⟨r, d.ctrl, pc⟩) = none) :
    interlocked r (.full ⟨i, c, pc'⟩) = true := by
  cases r with
  | aluResult => rfl
  | storeAddr => rfl
  | branchOutcome taken target => cases taken <;> simp_all [redirectOf, interlocked]
  | loadAddr dest addr =>
    obtain ⟨j, c', pc''⟩ := d
    cases j <;> simp [exFits] at hfit
    simp only at hctrl
    subst hctrl hfit
    simp [stallSignal, hd, hf, ctrlOf, Tri.asBool, bind, Except.bind, pure, Except.pure] at hs
    simpa [interlocked, srcs, hdec] using hs

/-- A cycle that raised nothing keeps the invariant. -/
theorem cycleDone_inv {s : State} (hi : s.inv = true) (hr : s.status = .running) {dmem : Memory}
    {memwb : Latch MemDone} {exmem : Latch Executed} {stall : Bool} {idex : Latch Decoded}
    (hm : memOut s = .ok (dmem, memwb)) (hx : exOut s = .ok exmem) (hs : stallSignal s = .ok stall)
    (hid : idOut s (redirectOf exmem) stall = .ok idex) :
    (cycleDone s dmem memwb exmem idex (ifOut s (redirectOf exmem) stall)).inv = true := by
  obtain ⟨hl, hdm, hif, hid', hex, hmw, -⟩ := inv_iff.mp hi
  have hidex : idex = .empty ∨ ∃ f i, s.ifid = .full f ∧ stall = false ∧ redirectOf exmem = none ∧
      decode f.word = .legal i ∧ idex = .full ⟨i, ctrlOf i, f.pc⟩ := by
    obtain ⟨hk, -⟩ | ⟨h1, h2, f, hf, ⟨why, hdec, hk⟩ | ⟨i, hdec, hk⟩⟩ :=
      idOut_cases s (redirectOf exmem) stall <;> rw [hk] at hid <;> cases hid
    · exact .inl rfl
    · exact .inr ⟨f, i, hf, h2, h1, hdec, rfl⟩
  have hdm' : dmemOk (cycleDone s dmem memwb exmem idex (ifOut s (redirectOf exmem) stall)) = true := by
    have h := memOut_dmem hm hdm
    simpa [dmemOk] using h
  refine inv_iff.mpr ⟨hl, hdm', ?_, ?_, ?_, ?_, by simp [statusOk, hr]⟩
  · cases stall with
    | true => exact hif
    | false =>
      cases hk : s.hasInstr ((redirectOf exmem).getD s.pc) <;> simp [ifidOk, ifOut, fetchAt, hk]
  · obtain rfl | ⟨f, i, hf, rfl, hred, hdec, rfl⟩ := hidex
    · rfl
    · obtain ⟨h1, h2, h3⟩ := ifidOk_full hif hf
      have h4 : ifOut s (redirectOf exmem) false = fetchAt s s.pc := by simp [ifOut, hred]
      rw [h2] at hdec
      simp [idexOk, h4, frontIndex_fetchAt, h1, hdec, h3]
  · obtain ⟨-, rfl⟩ | ⟨d, r, hd, hres, rfl⟩ := exOut_latch hx
    · rfl
    · obtain ⟨h1, h2, h3, -⟩ := idexOk_full hid' hd
      have hfit := exResult_fits hres
      have h5 : interlocked r idex = true := by
        obtain rfl | ⟨f, i, hf, rfl, hred, hdec, rfl⟩ := hidex
        · unfold interlocked; split <;> simp_all
        · exact interlocked_next hd h3 hf hs hdec hfit hred
      simp [exmemOk, h1, h2, h5, h3, hfit]
  · obtain ⟨-, rfl, -⟩ | ⟨e, m, he, rfl, ha⟩ := memOut_latch hm
    · rfl
    · obtain ⟨h1, -, i, h2, h3, h4⟩ := exmemOk_full hex he
      obtain ⟨hc1, hc2, -⟩ := memAccess_cases ha
      rw [← hc2] at h1 h2
      simp [memwbOk, h1, h2, memAccess_fits ha h4, hc1, h3]

end Sys2Proof.Machine
end

