-- ==== Sys2Proof/Laws/View.lean ====
section
/-! SUPPORT. What a pipeline state stands for in program order, and what one cycle does to it (40_pipeline.md
R140): the EX result of every instruction as one function, the older instructions carried to their end,
and the effect of a cycle on `archView`. -/

namespace Sys2Proof.Machine

/-! ## The EX result as one function of the operands -/

/-- The EX result of an instruction at index `pc` on operand values `v`. -/
def exOf (i : Instr) (pc : Word) (v : RegIdx → Word) : ExResult :=
  match i with
  | .add rd rs rt => exAdd rd (v rs) (v rt)
  | .sub rd rs rt => exSub rd (v rs) (v rt)
  | .beq rs rt off => exBeq off (v rs) (v rt) pc
  | .lw rt off rs => exLw rt off (v rs)
  | .sw rt off rs => exSw rt off (v rs) (v rt)

/-- The index of the next instruction. -/
def nextIndex (r : ExResult) (pc : Word) : Word :=
  match r with
  | .branchOutcome true target => target
  | _ => pc + 1#32

/-- EX in the pipeline, where the multiplexers answer `v`. -/
theorem exResult_eq {s : State} {x : RegFile} {d : Decoded} {v : RegIdx → Word}
    (h : ∀ r ∈ srcsOf d.instr, fwd s x r = .ok (v r)) :
    exResult s x d = .ok (exOf d.instr d.pc v) := by
  obtain ⟨i, c, pc⟩ := d
  cases i <;> simp [srcsOf] at h <;>
    simp [exResult, exOf, h, bind, Except.bind, pure, Except.pure]

/-- An instruction on its own: its EX result with plain register reads, finished. -/
theorem exec_finish (i : Instr) (s : State) :
    exec i s = .next (finish ⟨exOf i s.pc (readReg s.x), ctrlOf i, s.pc⟩
      (nextIndex (exOf i s.pc (readReg s.x)) s.pc) s) := by
  cases i <;> try rfl
  rename_i rs rt off
  show Host.Outcome.next _ = _
  simp only [exOf, nextIndex, exBeq]
  cases h : branchTaken (readReg s.x rs) (readReg s.x rt) <;> rfl

theorem runAt_running {s : State} (i : Instr) (pc : Word) (hr : s.status = .running) :
    runAt i pc s = finish ⟨exOf i pc (readReg s.x), ctrlOf i, pc⟩
      (nextIndex (exOf i pc (readReg s.x)) pc) { s with pc := pc } := by
  simp only [runAt, hr, exec_finish]

theorem runAt_stopped {s : State} (i : Instr) (pc : Word) (hr : s.status ≠ .running) :
    runAt i pc s = s := by
  cases h : s.status <;> simp [runAt, h]
  exact absurd h hr

/-! ## The older instructions carried to their end -/

/-- The register file after the write-backs of MEM/WB and of what MEM puts into it, `l`. -/
def olderX (s : State) (l : Latch MemDone) : RegFile :=
  match l with
  | .empty => (wbStage s).x
  | .full m => writeBack (wbStage s).x m.result

/-- `s` with the instructions in MEM/WB and EX/MEM complete and its latches emptied, at index `pc`. -/
def base (s : State) (l : Latch MemDone) (dmem : Memory) (pc : Word) : State :=
  { (s.cleared pc) with x := olderX s l, dmem := dmem }

@[simp] theorem base_x (s : State) (l : Latch MemDone) (dmem : Memory) (pc : Word) : (base s l dmem pc).x = olderX s l := rfl
@[simp] theorem base_status (s : State) (l : Latch MemDone) (dmem : Memory) (pc : Word) : (base s l dmem pc).status = s.status := rfl
@[simp] theorem base_pc (s : State) (l : Latch MemDone) (dmem : Memory) (pc : Word) : (base s l dmem pc).pc = pc := rfl

theorem afterMem_eq {s : State} {dmem l} (hm : memOut s = .ok (dmem, l)) :
    s.afterMem = base s l dmem s.frontIndex := by
  unfold State.afterMem
  obtain ⟨he, rfl, rfl⟩ | ⟨e, m, he, rfl, ha⟩ := memOut_latch hm
  · simp [he, base, olderX, State.cleared]
  · have hc : memAccess ((wbStage s).cleared e.pc) e = .ok (dmem, m) := by
      rw [memAccess_congr (s := s) e (by simp [State.cleared]) (by simp [State.cleared])]; exact ha
    rw [he]; simp only; rw [finish_ok hc]; simp [base, olderX, State.cleared]

theorem archView_eq {s : State} {dmem l} (hm : memOut s = .ok (dmem, l)) (hr : s.status = .running) :
    s.archView =
      match s.idex with
      | .empty => base s l dmem s.frontIndex
      | .full d =>
        finish ⟨exOf d.instr d.pc (readReg (olderX s l)), ctrlOf d.instr, d.pc⟩
          (nextIndex (exOf d.instr d.pc (readReg (olderX s l))) d.pc) (base s l dmem d.pc) := by
  unfold State.archView
  rw [afterMem_eq hm]
  cases s.idex with
  | empty => rfl
  | full d => exact runAt_running d.instr d.pc hr

theorem cycle_base (s : State) (dmem memwb exmem idex fetch pc) :
    (wbStage (cycleDone s dmem memwb exmem idex fetch)).cleared pc = base s memwb dmem pc := by
  simp only [base, State.cleared, wbStage_x, olderX]
  cases memwb <;> simp [wbStage_x]

theorem afterMem_cycleDone {s : State} {dmem l exmem idex fetch} :
    (cycleDone s dmem l exmem idex fetch).afterMem =
      match exmem with
        | .empty => base s l dmem (cycleDone s dmem l exmem idex fetch).frontIndex
        | .full e => finish e (cycleDone s dmem l exmem idex fetch).frontIndex (base s l dmem e.pc) := by
  unfold State.afterMem
  cases exmem <;> simp only [cycle_base, cycleDone_exmem]

/-! ## EX under the invariant -/

/-- EX gives the result of the instruction in ID/EX on the registers the older instructions leave. -/
theorem exOut_ok {s : State} (hi : s.inv = true) {dmem l} (hm : memOut s = .ok (dmem, l)) {d} (hd : s.idex = .full d) :
    exOut s = .ok (.full ⟨exOf d.instr d.pc (readReg (olderX s l)), d.ctrl, d.pc⟩) := by
  obtain ⟨hl, hdm, hif, hid, hex, hmw, hst⟩ := inv_iff.mp hi
  have hc : memClean s = true := memOut_clean.mpr ⟨_, hm⟩
  have ho : olderX s l = (olderView s).x := by
    obtain ⟨he, rfl, rfl⟩ | ⟨e, m, he, rfl, ha⟩ := memOut_latch hm
    · simp [olderX, olderView, he]
    · have hcc : memAccess (wbStage s) e = .ok (dmem, m) := by
        rw [memAccess_congr (s := s) e (by simp) (by simp)]; exact ha
      simp [olderX, olderView, he, finish_ok hcc]
  have : ∀ r ∈ srcsOf d.instr, fwd s (wbStage s).x r = .ok (readReg (olderX s l) r) := by
    intro r hr
    have hl := interlock_src hex hd hr
    rw [fwd_ok _ hex hmw hl, ho, older_read hc hl]
    cases exOffer s r with
    | some v => rfl
    | none => rw [wb_read]; cases wbOffer s r <;> rfl
  simp [exOut, hd, exResult_eq this]

theorem nextIndex_redirect (r : ExResult) (c pc) :
  nextIndex r pc = (redirectOf (.full ⟨r, c, pc⟩)).getD (pc + 1#32) := by
  unfold nextIndex redirectOf
  cases r <;> try rfl
  rename_i t g; cases t <;> rfl

theorem stall_noredirect {s : State} {exmem} (hx : exOut s = .ok exmem) (hst : stallSignal s = .ok true) :
    redirectOf exmem = none := by
  obtain ⟨d, f, rt, off, rs, hd, hf, hi, -⟩ := stallSignal_true hst
  obtain ⟨hd', -⟩ | ⟨d', r, hd', hr, rfl⟩ := exOut_latch hx
  · rw [hd] at hd'; cases hd'
  · rw [hd] at hd'; cases hd'
    have := exResult_fits hr
    rw [hi] at this
    cases r <;> simp [exFits] at this
    rfl

/-- After a cycle that raised nothing, the instructions past EX, carried to their end, give what the pipeline
stood for before it. -/
theorem afterMem_cycle {s : State} (hi : s.inv = true) (hr : s.status = .running) {dmem l exmem stall idex}
    (hm : memOut s = .ok (dmem, l)) (hx : exOut s = .ok exmem) (hst : stallSignal s = .ok stall)
    (hid : idOut s (redirectOf exmem) stall = .ok idex) :
    (idex = .empty → (cycleDone s dmem l exmem idex (ifOut s (redirectOf exmem) stall)).afterMem = s.archView) ∧
    (∀ d, idex = .full d → s.archView.status ≠ .running →
      (cycleDone s dmem l exmem idex (ifOut s (redirectOf exmem) stall)).afterMem = s.archView) ∧
    (∀ d, idex = .full d → s.archView.status = .running → s.archView.pc = d.pc ∧
      { (cycleDone s dmem l exmem idex (ifOut s (redirectOf exmem) stall)).afterMem with pc := d.pc } =
        s.archView ∧
      (cycleDone s dmem l exmem idex (ifOut s (redirectOf exmem) stall)).afterMem.status = .running) := by
  obtain ⟨hlw, hdm, hif, hid', hex, hmw, -⟩ := inv_iff.mp hi
  have hfront : (cycleDone s dmem l exmem idex (ifOut s (redirectOf exmem) stall)).frontIndex =
      if stall = true then s.frontIndex else (redirectOf exmem).getD s.pc := by
    cases stall with
    | true => rfl
    | false => simp [ifOut, frontIndex_fetchAt]
  have hcases := idOut_cases s (redirectOf exmem) stall
  rw [afterMem_cycleDone, archView_eq hm hr, hfront]
  cases hd : s.idex with
  | empty =>
    have hx' : exmem = .empty := by simpa [exOut, hd] using hx.symm
    subst hx'
    have hs' : stall = false := by simpa [stallSignal, hd] using hst.symm
    subst hs'
    obtain ⟨hk, h⟩ | ⟨-, -, f, hf, ⟨why, hdec, hk⟩ | ⟨i, hdec, hk⟩⟩ := hcases <;>
      rw [hk] at hid <;> cases hid
    · have h : s.ifid = .empty := by simpa [redirectOf] using h
      simp [State.frontIndex, h, redirectOf]
    · obtain ⟨h1, h2, h3⟩ := ifidOk_full hif hf
      refine ⟨nofun, ?_, ?_⟩
      · intro d h hh; exact absurd hr hh
      · intro d h hh; cases h
        refine ⟨by simp [State.frontIndex, hf, base, State.cleared], ?_, hr⟩
        simp [base, State.frontIndex, hf, State.cleared]
  | full d =>
    obtain ⟨h1, h2, h3, h4⟩ := idexOk_full hid' hd
    dsimp only
    have hx' := exOut_ok hi hm hd
    rw [hx] at hx'
    simp only [Except.ok.injEq] at hx'
    generalize exOf d.instr d.pc (readReg (olderX s l)) = r at hx' ⊢
    rw [h3] at hx'
    subst hx'
    simp only
    rw [nextIndex_redirect r (ctrlOf d.instr) d.pc, ← h4]
    obtain ⟨dm, m, ha, -⟩ | ⟨err, ha, -⟩ := finish_cases ⟨r, ctrlOf d.instr, d.pc⟩ s.pc (base s l dmem d.pc)
    · simp only [finish_ok ha, base_status, hr]
      obtain ⟨hk, h⟩ | ⟨hred, hsf, f, hf, ⟨why, hdec, hk⟩ | ⟨i, hdec, hk⟩⟩ := hcases <;>
        rw [hk] at hid <;> cases hid
      · have hpc : (if stall = true then s.frontIndex
            else (redirectOf (.full ⟨r, ctrlOf d.instr, d.pc⟩)).getD s.pc) =
            (redirectOf (.full ⟨r, ctrlOf d.instr, d.pc⟩)).getD s.frontIndex := by
          cases stall with
          | true => rw [stall_noredirect hx hst]; rfl
          | false =>
            cases hred : redirectOf (.full ⟨r, ctrlOf d.instr, d.pc⟩) with
            | some g => rfl
            | none =>
              have h : s.ifid = .empty := by simpa [hred] using h
              simp [State.frontIndex, h]
        rw [hpc]
        refine ⟨fun _ => rfl, ?_, ?_⟩ <;> (intro _ h; cases h)
      · obtain ⟨h1, h2, h3⟩ := ifidOk_full hif hf
        refine ⟨fun h => (by cases h), fun d h hh => absurd rfl hh, ?_⟩
        intro d h hh; cases h
        have hfr : s.frontIndex = f.pc := by simp [State.frontIndex, hf]
        simp only [hred, Option.getD_none, hfr, and_self]
    · simp only [finish_error ha]
      refine ⟨fun _ => trivial, fun _ _ _ => trivial, ?_⟩
      intro _ _ h; cases h

/-- What a cycle that raised nothing does to what the pipeline stands for: nothing when ID decodes nothing or
an older AddressError is on its way, and `exec` of the decoded instruction otherwise. -/
theorem archView_cycle {s : State} (hi : s.inv = true) (hr : s.status = .running) {dmem l exmem stall idex}
    (hm : memOut s = .ok (dmem, l)) (hx : exOut s = .ok exmem) (hst : stallSignal s = .ok stall)
    (hid : idOut s (redirectOf exmem) stall = .ok idex) :
    (idex = .empty → (cycleDone s dmem l exmem idex (ifOut s (redirectOf exmem) stall)).archView = s.archView) ∧
    (∀ d, idex = .full d → s.archView.status ≠ .running →
      (cycleDone s dmem l exmem idex (ifOut s (redirectOf exmem) stall)).archView = s.archView) ∧
    (∀ d, idex = .full d → s.archView.status = .running → s.archView.pc = d.pc ∧
      exec d.instr s.archView = .next (cycleDone s dmem l exmem idex (ifOut s (redirectOf exmem) stall)).archView) := by
  obtain ⟨k1, k2, k3⟩ := afterMem_cycle hi hr hm hx hst hid
  refine ⟨?_, ?_, ?_⟩
  · rintro rfl
    rw [State.archView]; exact k1 rfl
  · intro d hd hne
    have := k2 d hd hne
    subst hd
    conv_lhs => rw [State.archView]
    simp only [cycleDone_idex]
    rw [runAt_stopped _ _ (by rw [this]; exact hne), this]
  · intro d hd hne
    obtain ⟨h1, h2, h3⟩ := k3 d hd hne
    refine ⟨h1, ?_⟩
    subst hd
    conv_rhs => rw [State.archView]
    simp only [cycleDone_idex]
    rw [runAt_running _ _ h3, exec_finish, h1, ← h2]
/-! ## The signals of a cycle -/

/-- A cycle runs only while the status is RUNNING. -/
theorem runs_running {s : State} (h : s.runsCycle = true) : s.status = .running := by
  simp only [State.runsCycle, Bool.and_eq_true, beq_iff_eq] at h
  exact h.1.2

/-- The redirect signal is the one EX drives. -/
theorem redirectSignal_eq {s : State} {exmem} (hx : exOut s = .ok exmem) : redirectSignal s = .ok (redirectOf exmem) := by
  obtain ⟨hd, rfl⟩ | ⟨d, r, hd, hr, rfl⟩ := exOut_latch hx
  · simp [redirectSignal, hd, redirectOf]
  · simp only [redirectSignal, hd, hr]
    cases r with
    | branchOutcome t g => cases t <;> rfl
    | _ => rfl

/-- ID decodes what is in IF/ID exactly when there is neither a redirect nor a stall. -/
theorem decodesNext_full {s : State} {exmem b f} (hx : exOut s = .ok exmem) (hs : stallSignal s = .ok b) :
    decodesNext s = .full f ↔ redirectOf exmem = none ∧ b = false ∧ s.ifid = .full f := by
  simp only [decodesNext, redirectSignal_eq hx, hs]
  cases redirectOf exmem <;> cases b <;> simp

/-- What the pipeline stands for has the pipeline's launch. -/
theorem archView_launch (s : State) : s.archView.launch = s.launch := by
  have h1 : s.afterMem.launch = s.launch := by
    unfold State.afterMem
    split
    · simp [State.cleared]
    · rw [(finish_frame _ _ _).2.2.2.2.2.1]; simp [State.cleared]
  unfold State.archView
  split
  · exact h1
  · by_cases hr : s.afterMem.status = .running
    · rw [runAt_running _ _ hr, (finish_frame _ _ _).2.2.2.2.2.1]; exact h1
    · rw [runAt_stopped _ _ hr, h1]

/-- With an AddressError in MEM, what the pipeline stands for up to there is that error. -/
theorem afterMem_error {s : State} {err} (hm : memOut s = .error err) :
    s.afterMem = abort err 0#64
      ((wbStage s).cleared (match s.exmem with | .full e => e.pc | .empty => 0#32))
      ((wbStage s).cleared 0#32) := by
  unfold memOut at hm
  cases he : s.exmem with
  | empty => simp [he] at hm
  | full e =>
    simp only [he] at hm
    split at hm
    · rename_i err' herr
      cases hm
      have hcc : memAccess ((wbStage s).cleared e.pc) e = .error err := by
        rw [memAccess_congr (s := s) e (by simp [State.cleared]) (by simp [State.cleared])]; exact herr
      simp only [State.afterMem, he]; rw [finish_error hcc]; simp [abort, State.cleared]
    · cases hm

end Sys2Proof.Machine
end

