-- ==== Sys2Proof/Laws/Run.lean ====
section
/-! SUPPORT. Runs of the pipeline and of `Seq`: how they compose, that each ends in one state only, and what a
running cycle that stays RUNNING is made of. -/

namespace Sys2Proof.Machine

/-- Zero cycles. -/
theorem reaches_zero {s t : State} : ReachesIn 0 s t ↔ t = s := by
  unfold ReachesIn
  show Host.Outcome.next s = .next t ↔ _
  constructor
  · intro h; cases h; rfl
  · rintro rfl; rfl

/-- One cycle first. -/
theorem reaches_succ {n : Nat} {s t : State} :
    ReachesIn (n + 1) s t ↔ ∃ u, step s = .next u ∧ ReachesIn n u t := by
  unfold ReachesIn
  have h1 := Host.Core.run.eq_2 Sys2Proof.core s n
  cases h : step s with
  | next u =>
    have hcore : Sys2Proof.core.step s = .next u := h
    simp only [hcore] at h1
    rw [show Host.Core.run Sys2Proof.core (n + 1) s = Host.Core.run Sys2Proof.core n u from h1]
    simp
  | fault r =>
    have hcore : Sys2Proof.core.step s = .fault r := h
    simp only [hcore] at h1
    rw [show Host.Core.run Sys2Proof.core (n + 1) s = .fault r from h1]
    simp
  | refused r =>
    have hcore : Sys2Proof.core.step s = .refused r := h
    simp only [hcore] at h1
    rw [show Host.Core.run Sys2Proof.core (n + 1) s = .refused r from h1]
    simp

/-- Runs compose. -/
theorem reaches_add {m n : Nat} {s t u : State} (h : ReachesIn m s t) (h' : ReachesIn n t u) :
    ReachesIn (m + n) s u := by
  induction m generalizing s with
  | zero => rw [reaches_zero] at h; subst h; simpa using h'
  | succ m ih =>
    obtain ⟨v, hv, hm⟩ := reaches_succ.mp h
    rw [Nat.succ_add]
    exact reaches_succ.mpr ⟨v, hv, ih hm⟩

/-- One cycle last. -/
theorem reaches_snoc {n : Nat} {s t : State} :
    ReachesIn (n + 1) s t ↔ ∃ u, ReachesIn n s u ∧ step u = .next t := by
  induction n generalizing s with
  | zero =>
    rw [reaches_succ]
    constructor
    · rintro ⟨u, h, h'⟩; rw [reaches_zero] at h'; subst h'; exact ⟨s, reaches_zero.mpr rfl, h⟩
    · rintro ⟨u, h, h'⟩; rw [reaches_zero] at h; subst h; exact ⟨t, h', reaches_zero.mpr rfl⟩
  | succ n ih =>
    rw [reaches_succ]
    constructor
    · rintro ⟨u, h, h'⟩
      obtain ⟨v, h1, h2⟩ := ih.mp h'
      exact ⟨v, reaches_succ.mpr ⟨u, h, h1⟩, h2⟩
    · rintro ⟨v, h1, h2⟩
      obtain ⟨u, h3, h4⟩ := reaches_succ.mp h1
      exact ⟨u, h3, ih.mpr ⟨v, h4, h2⟩⟩

/-- A run is a function of its length. -/
theorem reaches_det {n : Nat} {s t u : State} (h : ReachesIn n s t) (h' : ReachesIn n s u) : t = u := by
  unfold ReachesIn at h h'; rw [h] at h'; cases h'; rfl

/-- A step from a state that is not RUNNING changes nothing (R40). -/
theorem step_stopped {s : State} (h : s.status ≠ .running) : step s = .next s := by
  unfold step clockEdge
  split
  · rfl
  · cases hs : s.status <;> simp_all

/-- A run from a state that is not RUNNING stays in it. -/
theorem reaches_stopped {n : Nat} {s t : State} (hs : s.status ≠ .running) (h : ReachesIn n s t) : t = s := by
  induction n with
  | zero => exact reaches_zero.mp h
  | succ n ih =>
    obtain ⟨u, h1, h2⟩ := reaches_succ.mp h
    rw [step_stopped hs] at h1; cases h1
    exact ih h2

/-- A run ends in one state only. -/
theorem ends_unique {m n : Nat} {s t u : State} (h : ReachesIn m s t) (h' : ReachesIn n s u)
    (ht : t.status ≠ .running) (hu : u.status ≠ .running) : t = u := by
  rcases Nat.le_total m n with hle | hle
  · obtain ⟨k, rfl⟩ := Nat.exists_eq_add_of_le hle
    have : ReachesIn (m + k) s t := reaches_add h (by
      clear h' hle
      induction k with
      | zero => exact reaches_zero.mpr rfl
      | succ k ih => exact reaches_succ.mpr ⟨t, step_stopped ht, ih⟩)
    exact reaches_det this h'
  · obtain ⟨k, rfl⟩ := Nat.exists_eq_add_of_le hle
    have : ReachesIn (n + k) s u := reaches_add h' (by
      clear h hle
      induction k with
      | zero => exact reaches_zero.mpr rfl
      | succ k ih => exact reaches_succ.mpr ⟨u, step_stopped hu, ih⟩)
    exact reaches_det h this

/-- A step of `Seq` always answers a next state. -/
theorem seqStep_total (s : State) : ∃ t, seqStep s = .next t := by
  unfold seqStep
  split
  · exact ⟨_, rfl⟩
  · exact ⟨_, rfl⟩
  · split
    · split
      · rw [exec_finish]; exact ⟨_, rfl⟩
      · exact ⟨_, rfl⟩
    · exact ⟨_, rfl⟩

/-- `Seq` stays where it has stopped. -/
theorem seqStep_stopped {s : State} (h : s.status ≠ .running) : seqStep s = .next s := by
  unfold seqStep; cases hs : s.status <;> simp_all

/-- One step of `Seq` first. -/
theorem seqRun_succ {n : Nat} {s t : State} :
    seqRun (n + 1) s = .next t ↔ ∃ u, seqStep s = .next u ∧ seqRun n u = .next t := by
  obtain ⟨u, hu⟩ := seqStep_total s
  simp [seqRun, hu]

/-- A run of `Seq` always answers a next state. -/
theorem seqRun_total (n : Nat) (s : State) : ∃ t, seqRun n s = .next t := by
  induction n generalizing s with
  | zero => exact ⟨s, rfl⟩
  | succ n ih =>
    obtain ⟨u, hu⟩ := seqStep_total s
    obtain ⟨t, ht⟩ := ih u
    exact ⟨t, seqRun_succ.mpr ⟨u, hu, ht⟩⟩

/-- Runs of `Seq` compose. -/
theorem seqRun_add {m n : Nat} {s t u : State} (h : seqRun m s = .next t) (h' : seqRun n t = .next u) :
    seqRun (m + n) s = .next u := by
  induction m generalizing s with
  | zero => cases h; simpa using h'
  | succ m ih =>
    obtain ⟨v, hv, hm⟩ := seqRun_succ.mp h
    rw [Nat.succ_add]
    exact seqRun_succ.mpr ⟨v, hv, ih hm⟩

/-- `Seq` stays where it has stopped, for any number of steps. -/
theorem seqRun_stopped {n : Nat} {s : State} (h : s.status ≠ .running) : seqRun n s = .next s := by
  induction n with
  | zero => rfl
  | succ n ih => exact seqRun_succ.mpr ⟨s, seqStep_stopped h, ih⟩

/-- `Seq` stops in one state only. -/
theorem seqRun_unique {m n : Nat} {s t u : State} (h : seqRun m s = .next t) (h' : seqRun n s = .next u)
    (ht : t.status ≠ .running) (hu : u.status ≠ .running) : t = u := by
  rcases Nat.le_total m n with hle | hle
  · obtain ⟨k, rfl⟩ := Nat.exists_eq_add_of_le hle
    have := seqRun_add h (seqRun_stopped (n := k) ht)
    rw [h'] at this; cases this; rfl
  · obtain ⟨k, rfl⟩ := Nat.exists_eq_add_of_le hle
    have := seqRun_add h' (seqRun_stopped (n := k) hu)
    rw [h] at this; cases this; rfl

/-- From any state on the way, `Seq` comes to the same stop. -/
theorem seqRun_sub {m n : Nat} {s t u : State} (h : seqRun m s = .next t) (h' : seqRun n s = .next u)
    (hu : u.status ≠ .running) : seqRun n t = .next u := by
  have h1 := seqRun_total n t
  obtain ⟨v, hv⟩ := h1
  have h2 := seqRun_add h hv
  have h3 := seqRun_add h' (seqRun_stopped (n := m) hu)
  rw [Nat.add_comm, h2] at h3; cases h3; exact hv

/-! ## Running cycles -/

/-- A cycle in which nothing is raised. -/
theorem step_ok {s : State} (hc : s.runsCycle = true) {dmem : Memory} {memwb : Latch MemDone}
    {exmem : Latch Executed} {stall : Bool} {idex : Latch Decoded} (hm : memOut s = .ok (dmem, memwb))
    (hx : exOut s = .ok exmem) (hs : stallSignal s = .ok stall)
    (hid : idOut s (redirectOf exmem) stall = .ok idex) :
    step s = .next (cycleDone s dmem memwb exmem idex (ifOut s (redirectOf exmem) stall)) := by
  rw [step_runs hc, runStages_eq, hm]
  simp only [hx, hs, hid]

/-- A running cycle that stays RUNNING is one in which nothing is raised. -/
theorem step_ok_cases {s t : State} (hc : s.runsCycle = true) (ht : step s = .next t)
    (htr : t.status = .running) :
    ∃ dmem memwb exmem stall idex, memOut s = .ok (dmem, memwb) ∧ exOut s = .ok exmem ∧
      stallSignal s = .ok stall ∧ idOut s (redirectOf exmem) stall = .ok idex ∧
      t = cycleDone s dmem memwb exmem idex (ifOut s (redirectOf exmem) stall) := by
  rw [step_runs hc] at ht
  obtain ⟨e, hm, rfl⟩ | ⟨dmem, memwb, exmem, stall, hm, hx, hs, ⟨e, he, rfl⟩ | ⟨idex, hid, rfl⟩⟩ :=
    runStages_cases ht
  · cases htr
  · cases htr
  · exact ⟨_, _, _, _, _, hm, hx, hs, hid, rfl⟩

/-- A step outside a running cycle, out of reset, does not stay RUNNING. -/
theorem idle_not_running {s t : State} (hc : s.runsCycle = false) (ht : step s = .next t)
    (hrst : s.rst = false) : t.status ≠ .running := by
  rw [step_idle hc] at ht
  cases ht
  split
  · simp
  · rename_i h
    simpa [hrst] using h

/-- The state with a word loaded and fetched: the word is in IF/ID, and nothing older is in flight. -/
theorem withFetchWord_eq {s : State} (hwf : Memory.wf s.launch.prog = true) (nbits w : Nat) :
    s.withFetchWord nbits w =
      cycleDone (s.withProgramWord nbits w) s.dmem .empty .empty .empty
        (.full ⟨BitVec.ofNat 32 (w % 2 ^ nbits), s.pc⟩, s.pc + 1#32) := by
  have hh : (s.withProgramWord nbits w).hasInstr s.pc = true := hasInstr_iff.mpr (by simp)
  have hp : (s.withProgramWord nbits w).progWord s.pc = BitVec.ofNat 32 (w % 2 ^ nbits) := by
    simp only [State.progWord, withProgramWord_launch]
    rw [Memory.read_write_same hwf]
  have hc : (s.withProgramWord nbits w).runsCycle = true := by
    simp [State.runsCycle, completes, hh]
  have hif : ifOut (s.withProgramWord nbits w) (redirectOf .empty) false =
      (.full ⟨BitVec.ofNat 32 (w % 2 ^ nbits), s.pc⟩, s.pc + 1#32) := by
    simp [ifOut, redirectOf, fetchAt, hh, hp]
  unfold State.withFetchWord
  rw [step_ok hc (dmem := s.dmem) (memwb := .empty) (exmem := .empty) (stall := false) (idex := .empty)
    rfl rfl rfl rfl, hif]

/-- An AddressError in MEM is already the status of what the pipeline stands for. -/
theorem archView_of_memOut_error {s : State} {err : FatalError} (hm : memOut s = .error err) :
    s.archView.status = .error err := by
  have h1 := afterMem_error hm
  unfold State.archView
  split
  · rw [h1]; rfl
  · rw [runAt_stopped] <;> rw [h1] <;> simp

end Sys2Proof.Machine
end

