-- ==== Sys2Proof/Laws/Progress.lean ====
section
/-! SUPPORT. Progress: a cycle that stays RUNNING either executes one step of `Seq` or lowers a bounded measure,
so that the pipeline cannot run on where `Seq` has stopped (40_pipeline.md R140). -/

namespace Sys2Proof.Machine

/-- 1 for a latch that holds a payload. -/
def occupied {α : Type} (l : Latch α) : Nat :=
  match l with
  | .empty => 0
  | .full _ => 1

/-- 4 for a fetch that is still to come into an EMPTY IF/ID. -/
def fetchDue (l : Latch Fetched) (b : Bool) : Nat :=
  match l with
  | .empty => if b then 4 else 0
  | .full _ => 0

/-- How far a pipeline that decodes nothing is from being drained. -/
def drainMeasure (s : State) : Nat :=
  8 * occupied s.idex + fetchDue s.ifid (s.hasInstr s.pc) + 2 * occupied s.exmem + occupied s.memwb

/-- A measure that falls in each cycle that executes no step of `Seq`. -/
def waitMeasure (s : State) : Nat :=
  match s.archView.status with
  | .running => drainMeasure s + 2
  | .done => 0
  | .error _ => match memOut s with | .ok _ => 1 | .error _ => 0

theorem occupied_le {α : Type} (l : Latch α) : occupied l ≤ 1 := by cases l <;> simp [occupied]

theorem waitMeasure_le (s : State) : waitMeasure s ≤ 17 := by
  have h1 := occupied_le s.idex
  have h2 := occupied_le s.exmem
  have h3 := occupied_le s.memwb
  unfold waitMeasure drainMeasure fetchDue
  split
  · split
    · split <;> omega
    · omega
  · omega
  · split <;> omega

theorem occupied_exOut {s : State} {exmem : Latch Executed} (hx : exOut s = .ok exmem) :
    occupied exmem = occupied s.idex := by
  obtain ⟨hd, rfl⟩ | ⟨d, r, hd, -, rfl⟩ := exOut_latch hx <;> rw [hd] <;> rfl

theorem occupied_memOut {s : State} {dmem : Memory} {memwb : Latch MemDone}
    (hm : memOut s = .ok (dmem, memwb)) : occupied memwb = occupied s.exmem := by
  obtain ⟨he, rfl, -⟩ | ⟨e, m, he, rfl, -⟩ := memOut_latch hm <;> rw [he] <;> rfl

/-- After a fetch, no fetch is due. -/
theorem fetchDue_fetchAt (s : State) (k : Word) :
    fetchDue (fetchAt s k).1 (s.hasInstr (fetchAt s k).2) = 0 := by
  cases hk : s.hasInstr k <;> simp [fetchAt, fetchDue, hk]

/-- A running cycle that decodes nothing and raises nothing comes nearer to being drained. -/
theorem drainMeasure_lt {s : State} (hc : s.runsCycle = true) {dmem : Memory} {memwb : Latch MemDone}
    {exmem : Latch Executed} {stall : Bool} (hm : memOut s = .ok (dmem, memwb))
    (hx : exOut s = .ok exmem) (hs : stallSignal s = .ok stall)
    (h : redirectOf exmem ≠ none ∨ stall = true ∨ s.ifid = .empty) :
    drainMeasure (cycleDone s dmem memwb exmem .empty (ifOut s (redirectOf exmem) stall)) <
      drainMeasure s := by
  have e1 := occupied_exOut hx
  have e2 := occupied_memOut hm
  have b1 := occupied_le s.idex
  have b2 := occupied_le s.exmem
  have b3 := occupied_le s.memwb
  have z : occupied (Latch.empty : Latch Decoded) = 0 := rfl
  unfold drainMeasure
  simp only [cycleDone_idex, cycleDone_exmem, cycleDone_memwb, cycleDone_ifid, cycleDone_pc,
    hasInstr_cycleDone, e1, e2, z]
  cases stall with
  | true =>
    obtain ⟨d, f, rt, off, rs, hd, hf, -⟩ := stallSignal_true hs
    simp only [ifOut, if_true, hd, hf, occupied, fetchDue] at *
    omega
  | false =>
    have hif : ifOut s (redirectOf exmem) false = fetchAt s ((redirectOf exmem).getD s.pc) := by
      simp [ifOut]
    rw [hif, fetchDue_fetchAt]
    cases hd : s.idex with
    | full d =>
      simp only [hd, occupied] at *
      omega
    | empty =>
      have hx' : exmem = .empty := by simpa [exOut, hd] using hx.symm
      subst hx'
      have hife : s.ifid = .empty := by simpa [redirectOf] using h
      have hcomp : completes s = false := by
        simp only [State.runsCycle, Bool.and_eq_true, Bool.not_eq_true'] at hc
        exact hc.2
      rw [hife]
      simp only [occupied, fetchDue] at b2 b3 ⊢
      cases hh : s.hasInstr s.pc with
      | true =>
        simp only [if_true]
        omega
      | false =>
        simp only [completes, hife, hd, hh] at hcomp
        cases he : s.exmem <;> cases hw : s.memwb <;> simp [he, hw] at hcomp ⊢

/-- When an AddressError is on its way and MEM raises nothing yet, MEM raises it in the next cycle. -/
theorem memOut_error_next {s : State} (hi : s.inv = true) (hr : s.status = .running)
    (hav : s.archView.status ≠ .running) {dmem : Memory} {memwb : Latch MemDone} {exmem : Latch Executed}
    (hm : memOut s = .ok (dmem, memwb)) (hx : exOut s = .ok exmem) (idex : Latch Decoded)
    (fetch : Latch Fetched × Word) :
    ∃ err, memOut (cycleDone s dmem memwb exmem idex fetch) = .error err := by
  obtain ⟨-, -, -, hid, -⟩ := inv_iff.mp hi
  rw [archView_eq hm hr] at hav
  cases hd : s.idex with
  | empty => rw [hd] at hav; exact absurd hr hav
  | full d =>
    have hx' := exOut_ok hi hm hd
    rw [hx] at hx'
    cases hx'
    obtain ⟨-, -, hctrl, -⟩ := idexOk_full hid hd
    simp only [hd] at hav
    obtain ⟨dm, m, ha, hfin⟩ | ⟨err, ha, hfin⟩ := finish_cases
      ⟨exOf d.instr d.pc (readReg (olderX s memwb)), ctrlOf d.instr, d.pc⟩
      (nextIndex (exOf d.instr d.pc (readReg (olderX s memwb))) d.pc) (base s memwb dmem d.pc)
    · rw [hfin] at hav
      exact absurd hr hav
    · refine ⟨err, ?_⟩
      simp only [memOut, cycleDone_exmem]
      rw [memAccess_congr (s := base s memwb dmem d.pc) (t := cycleDone s dmem memwb _ idex fetch) _
        rfl rfl, hctrl, ha]

/-- In `Seq`, the word that ID decodes comes next, when no AddressError is on its way. -/
theorem seqStep_decoded {s : State} (hi : s.inv = true) {f : Fetched} {i : Instr} (hf : s.ifid = .full f)
    (hdec : decode f.word = .legal i) (hav : s.archView.status = .running) (hpc : s.archView.pc = f.pc) :
    s.archView.hasInstr s.archView.pc = true ∧ decode (s.archView.progWord s.archView.pc) = .legal i ∧
      seqStep s.archView = exec i s.archView := by
  obtain ⟨-, -, hif, -⟩ := inv_iff.mp hi
  obtain ⟨h2, h3, -⟩ := ifidOk_full hif hf
  have hh : s.archView.hasInstr s.archView.pc = true := by
    rw [hpc]; simpa [State.hasInstr, archView_launch] using h2
  have hp : decode (s.archView.progWord s.archView.pc) = .legal i := by
    rw [hpc, ← hdec, h3]; simp [State.progWord, archView_launch]
  exact ⟨hh, hp, by simp only [seqStep, hav, hh, hp, if_true]⟩

/-- A cycle that stays RUNNING is one step of `Seq`, or leaves what the pipeline stands for as it was and
lowers the measure. -/
theorem cycle_progress {s t : State} (hi : s.inv = true) (hc : s.runsCycle = true)
    (ht : step s = .next t) (htr : t.status = .running) :
    (s.archView.status = .running ∧ seqStep s.archView = .next t.archView) ∨
    (t.archView = s.archView ∧ waitMeasure t < waitMeasure s) := by
  have hr := runs_running hc
  obtain ⟨dmem, memwb, exmem, stall, idex, hm, hx, hs, hid, rfl⟩ := step_ok_cases hc ht htr
  obtain ⟨k1, k2, k3⟩ := archView_cycle hi hr hm hx hs hid
  by_cases hav : s.archView.status = .running
  · obtain ⟨hk, h⟩ | ⟨hred, rfl, f, hf, ⟨why, hdec, hk⟩ | ⟨i, hdec, hk⟩⟩ :=
      idOut_cases s (redirectOf exmem) stall <;> rw [hk] at hid <;> cases hid
    · have hv := k1 rfl
      refine .inr ⟨hv, ?_⟩
      have := drainMeasure_lt hc hm hx hs h
      unfold waitMeasure
      rw [hv, hav]
      simp only
      omega
    · obtain ⟨hpc, hex⟩ := k3 _ rfl hav
      obtain ⟨-, -, hseq⟩ := seqStep_decoded hi hf hdec hav hpc
      exact .inl ⟨hav, hseq.trans hex⟩
  · have hv : (cycleDone s dmem memwb exmem idex (ifOut s (redirectOf exmem) stall)).archView =
        s.archView := by
      cases idex with
      | empty => exact k1 rfl
      | full d => exact k2 d rfl hav
    refine .inr ⟨hv, ?_⟩
    obtain ⟨err, hf⟩ := memOut_error_next hi hr hav hm hx idex (ifOut s (redirectOf exmem) stall)
    have herr := archView_of_memOut_error hf
    rw [hv] at herr
    unfold waitMeasure
    rw [hv, herr, hf, hm]
    simp

end Sys2Proof.Machine
end

