-- ==== Sys2Proof/Laws/Count.lean ====
section
/-! SUPPORT. The cycle count (70_reset_and_hazards.md R236): the cycles a run still takes from any state of the
invariant, and that each cycle takes one off. -/

namespace Sys2Proof.Machine

/-- `ExecRun k a v`: from `a`, `Seq` executes `k` instructions and is then at the end of the program, in `v`. -/
inductive ExecRun : Nat → State → State → Prop
  | zero (a : State) : a.status = .running → a.hasInstr a.pc = false → ExecRun 0 a a
  | succ {k : Nat} {a : State} {i : Instr} {b v : State} : a.status = .running → a.hasInstr a.pc = true →
      decode (a.progWord a.pc) = .legal i → exec i a = .next b → ExecRun k b v → ExecRun (k + 1) a v

theorem ExecRun.running {k : Nat} {a v : State} (h : ExecRun k a v) : a.status = .running := by
  cases h <;> assumption

theorem ExecRun.has {k : Nat} {a v : State} (h : ExecRun k a v) : a.hasInstr a.pc = decide (k ≠ 0) := by
  cases h <;> simp [*]

/-- S + T of R236 over the next `k` instructions from `a`, with `last` executed just before. -/
def extraCycles : Nat → State → Option Instr → Nat
  | 0, _, _ => 0
  | k + 1, a, last =>
    match decode (a.progWord a.pc) with
    | .legal i => (if isLoadUse last i then 1 else 0) + (if isTakenInside i a then 1 else 0) +
        (match exec i a with | .next b => extraCycles k b (some i) | _ => 0)
    | .illegal _ => 0

/-- The counts of a run of `k` executed instructions. -/
theorem seqTally_counts {k a v} (h : ExecRun k a v) (t : Tally) :
    (seqTally k a t).executed = t.executed + k ∧
    (seqTally k a t).loadUse + (seqTally k a t).taken = t.loadUse + t.taken + extraCycles k a t.last := by
  induction h generalizing t with
  | zero a h1 h2 => simp [seqTally, extraCycles]
  | @succ k a i b v h1 h2 h3 h4 h5 ih =>
    have hs : seqStep a = .next b := by simp [seqStep, h1, h2, h3, h4]
    have hc : t.count a = ⟨t.executed + 1, t.loadUse + (if isLoadUse t.last i then 1 else 0),
        t.taken + (if isTakenInside i a then 1 else 0), some i⟩ := by simp [Tally.count, h1, h2, h3]
    have := ih (t.count a)
    simp only [seqTally, hs]
    rw [hc] at this ⊢
    obtain ⟨e1, e2⟩ := this
    simp only [extraCycles, h3, h4]
    constructor
    · rw [e1]; simp only; omega
    · rw [e2]; simp only; omega

/-- A run of `Seq` that halts is a run of executed instructions up to the end of the program. -/
theorem execRun_of_halts {n a v} (h : seqRun n a = .next v) (ha : a.status = .running) (hv : v.status = .done) :
    ∃ k w, ExecRun k a w ∧ v = { w with status := .done } ∧ ∀ t, seqTally n a t = seqTally k a t := by
  induction n generalizing a with
  | zero => cases h; rw [ha] at hv; cases hv
  | succ n ih =>
    obtain ⟨b, hb, hn⟩ := seqRun_succ.mp h
    have hb' := hb
    unfold seqStep at hb
    simp only [ha] at hb
    split at hb
    · rename_i hh
      split at hb
      · rename_i i hd
        by_cases hbr : b.status = .running
        · obtain ⟨k, w, h1, h2, h3⟩ := ih hn hbr
          refine ⟨k + 1, w, .succ ha hh hd hb h1, h2, ?_⟩
          intro t
          simp only [seqTally, hb', h3]
        · have : v = b := by have := seqRun_stopped (n := n) hbr; rw [hn] at this; cases this; rfl
          subst this
          exfalso
          rw [exec_finish] at hb
          cases hb
          obtain ⟨_, _, -, h⟩ | ⟨err, -, h⟩ := finish_cases
            ⟨exOf i a.pc (readReg a.x), ctrlOf i, a.pc⟩ (nextIndex (exOf i a.pc (readReg a.x)) a.pc) a <;>
            rw [h] at hv
          · simp [ha] at hv
          · simp at hv
      · cases hb
        have := seqRun_stopped (n := n) (s := abort (.formatError (a.progWord a.pc) a.pc) a.cycle a a) (by simp)
        rw [hn] at this; cases this; simp at hv
    · rename_i hh
      cases hb
      have := seqRun_stopped (n := n) (s := { a with status := .done }) (by simp)
      rw [hn] at this; cases this
      refine ⟨0, a, .zero a ha (by simpa using hh), rfl, ?_⟩
      intro t
      have key : ∀ n (b : State) (t : Tally), b.status = .done → seqTally n b t = t := by
        intro n
        induction n with
        | zero => intros; rfl
        | succ n ih2 =>
          intro b t hb
          have h1 : seqStep b = .next b := seqStep_stopped (by simp [hb])
          have h2 : t.count b = t := by simp [Tally.count, hb]
          simp only [seqTally, h1, h2]; exact ih2 b t hb
      simp only [seqTally, hb']
      rw [key _ _ _ rfl]
      simp [Tally.count, ha, hh]

/-- The instruction in ID/EX, when the word behind it is in IF/ID. -/
def lastOf (u : State) : Option Instr :=
  match u.ifid, u.idex with
  | .full _, .full d => some d.instr
  | _, _ => none

/-- The redirect of the next cycle, none where EX would breach. -/
def redirectOr (u : State) : Option Word := match redirectSignal u with | .ok r => r | .error _ => none

/-- The cycles from `u` on that execute nothing, apart from stalls: the drain at the end, and a cycle in which the
next instruction is fetched only now. -/
def idleCycles (u : State) (k : Nat) : Nat :=
  if k = 0 then
    match u.idex, u.exmem, u.memwb with
    | .full _, _, _ => 3
    | .empty, .full _, _ => 2
    | .empty, .empty, .full _ => 1
    | .empty, .empty, .empty => 0
  else 3 + (if u.ifid = .empty ∨ redirectOr u ≠ none then 1 else 0)

/-- The cycles that a run still takes from `u` when `k` instructions are left to decode (R236). -/
def remaining (u : State) (k : Nat) : Nat := k + extraCycles k u.archView (lastOf u) + idleCycles u k

/-- Only an LW just before costs a stall. -/
theorem extraCycles_no_lw {k a l} (h : ∀ i, isLoadUse l i = false) : extraCycles k a l = extraCycles k a none := by
  cases k with
  | zero => rfl
  | succ k => simp only [extraCycles, h]; rfl

/-- With nothing in ID/EX, what the pipeline stands for is at the front of the pipeline. -/
theorem archView_pc_front {u : State} {dmem l} (hm : memOut u = .ok (dmem, l)) (hd : u.idex = .empty) :
    u.archView.pc = u.frontIndex := by
  simp only [State.archView, hd, afterMem_eq hm, base_pc]

/-- A cycle that raises nothing takes one off the remaining cycles. -/
theorem remaining_step {u t : State} {k : Nat} {v : State} (hi : u.inv = true) (hc : u.runsCycle = true)
    (hrun : ExecRun k u.archView v) (ht : step u = .next t) (htr : t.status = .running) :
    ∃ k', ExecRun k' t.archView v ∧ remaining u k = remaining t k' + 1 := by
  have hr := runs_running hc
  have ht0 := ht
  obtain ⟨dmem, memwb, exmem, stall, idex, hm, hx, hs, hide, rfl⟩ := step_ok_cases hc ht htr
  have hit := cycleDone_inv hi hr hm hx hs hide
  obtain ⟨v1, -, v3⟩ := archView_cycle hi hr hm hx hs hide
  obtain ⟨hlw, hdm, hif, hid', hex, hmw, -⟩ := inv_iff.mp hi
  have hav := hrun.running
  have hredir : redirectOr u = redirectOf exmem := by simp [redirectOr, redirectSignal_eq hx]
  obtain ⟨hk, h⟩ | ⟨hred, rfl, f, hf, ⟨why, hdec, hk⟩ | ⟨i, hdec, hk⟩⟩ := idOut_cases u (redirectOf exmem) stall <;>
    rw [hk] at hide <;> cases hide
  · -- nothing decoded
    have hv := v1 rfl
    refine ⟨k, by rw [hv]; exact hrun, ?_⟩
    have hlt : lastOf (cycleDone u dmem memwb exmem .empty (ifOut u (redirectOf exmem) stall)) = none := by
      unfold lastOf; split <;> simp_all
    have hrt : redirectOr (cycleDone u dmem memwb exmem .empty (ifOut u (redirectOf exmem) stall)) = none := by
      simp [redirectOr, redirectSignal]
    unfold remaining
    rw [hv, hlt]
    by_cases hk0 : k = 0
    · subst hk0
      simp only [extraCycles, idleCycles, if_true, cycleDone_idex, cycleDone_exmem, cycleDone_memwb]
      obtain ⟨hd, rfl⟩ | ⟨d, r, hd, -, rfl⟩ := exOut_latch hx
      · obtain ⟨he, rfl, -⟩ | ⟨e, m, he, rfl, -⟩ := memOut_latch hm
        · cases hw : u.memwb with
          | full w => simp [hd, he]
          | empty =>
            exfalso
            have hst : stall = false := by simpa [stallSignal, hd] using hs.symm
            subst hst
            have hife : u.ifid = .empty := by simpa [redirectOf] using h
            have h1 := hrun.has
            rw [archView_pc_front hm hd] at h1
            simp only [State.frontIndex, hife] at h1
            have h2 : u.hasInstr u.pc = false := by simpa [State.hasInstr, archView_launch] using h1
            simp [State.runsCycle, completes, hife, hd, he, hw, h2] at hc
        · simp [hd, he]
      · simp [hd]
    · have h1 := hrun.has
      simp only [hk0, ne_eq, not_false_eq_true, decide_true] at h1
      rw [← hv] at h1
      have hm' : ∃ p, memOut (cycleDone u dmem memwb exmem .empty (ifOut u (redirectOf exmem) stall)) = .ok p := by
        cases hmm : memOut (cycleDone u dmem memwb exmem .empty (ifOut u (redirectOf exmem) stall)) with
        | ok p => exact ⟨p, rfl⟩
        | error err =>
          exfalso
          have := archView_of_memOut_error hmm
          rw [hv, hav] at this; cases this
      obtain ⟨⟨dm', l'⟩, hm'⟩ := hm'
      have hpc := archView_pc_front hm' rfl
      have hpc2 : u.archView.pc = (cycleDone u dmem memwb exmem .empty (ifOut u (redirectOf exmem) stall)).frontIndex := by
        rw [← hv, hpc]
      have h2 : u.hasInstr (cycleDone u dmem memwb exmem .empty (ifOut u (redirectOf exmem) stall)).frontIndex = true := by
        rw [hpc] at h1; simpa [State.hasInstr, archView_launch] using h1
      simp only [idleCycles, hk0, if_false, hrt, hredir, cycleDone_ifid]
      cases stall with
      | true =>
        obtain ⟨d, f, rt, off, rs, hd, hf, hin, hsrc⟩ := stallSignal_true hs
        have hrn := stall_noredirect hx hs
        have hlu : lastOf u = some (.lw rt off rs) := by simp [lastOf, hf, hd, hin]
        obtain ⟨k, rfl⟩ := Nat.exists_eq_succ_of_ne_zero hk0
        have hpc3 : u.archView.pc = f.pc := by
          rw [hpc2]; simp [ifOut, State.frontIndex, hf]
        have hw : u.archView.progWord u.archView.pc = f.word := by
          rw [hpc3, (ifidOk_full hif hf).2.1]; simp [State.progWord, archView_launch]
        cases hrun with
        | succ e1 e2 e3 e4 e5 =>
          rename_i j b
          have hlu2 : isLoadUse (lastOf u) j = true := by
            rw [hw] at e3
            simpa [hlu, isLoadUse, srcs, e3] using hsrc
          have hlu3 : isLoadUse none j = false := rfl
          simp only [extraCycles, e3, hlu2, hlu3, hf, hrn, ifOut]
          simp
          try omega
      | false =>
        rw [show ifOut u (redirectOf exmem) false = fetchAt u ((redirectOf exmem).getD u.pc) by simp [ifOut]] at h2 ⊢
        rw [frontIndex_fetchAt] at h2
        have hfull : (fetchAt u ((redirectOf exmem).getD u.pc)).1 ≠ .empty := by simp [fetchAt, h2]
        have hcond : u.ifid = .empty ∨ redirectOf exmem ≠ none := by
          obtain h | h | h := h
          · exact .inr h
          · cases h
          · exact .inl h
        have hcost : extraCycles k u.archView (lastOf u) = extraCycles k u.archView none := by
          obtain h | h := hcond
          · have : lastOf u = none := by unfold lastOf; split <;> simp_all
            rw [this]
          · apply extraCycles_no_lw
            intro i
            obtain ⟨hd, rfl⟩ | ⟨d, r, hd, hrr, rfl⟩ := exOut_latch hx
            · exact absurd rfl h
            · unfold lastOf
              split
              · rename_i hd'
                rw [hd] at hd'; cases hd'
                have hfits := exResult_fits hrr
                cases r with
                | branchOutcome tk tg =>
                  obtain ⟨ii, c, pc⟩ := d
                  cases ii <;> simp [exFits] at hfits
                  rfl
                | _ => exact absurd rfl h
              · rfl
        rw [hcost]
        simp only [hfull, hcond]
        simp
        try omega
  · -- decoded
    obtain ⟨hpc, hex'⟩ := v3 _ rfl hav
    obtain ⟨g1, g2, g3⟩ := ifidOk_full hif hf
    have hw : u.archView.progWord u.archView.pc = f.word := by
      rw [hpc, g2]; simp [State.progWord, archView_launch]
    cases hrun with
    | zero _ _ e2 =>
      exfalso
      rw [hpc] at e2
      have : u.hasInstr f.pc = false := by simpa [State.hasInstr, archView_launch] using e2
      rw [g1] at this; cases this
    | @succ k _ j b _ e1 e2 e3 e4 e5 =>
      rw [hw, hdec] at e3; cases e3
      rw [hex'] at e4; cases e4
      refine ⟨k, e5, ?_⟩
      generalize hT : cycleDone u dmem memwb exmem (.full ⟨i, ctrlOf i, f.pc⟩) (ifOut u (redirectOf exmem) false) = T at *
      have hTd : T.idex = .full ⟨i, ctrlOf i, f.pc⟩ := by rw [← hT]; rfl
      have hTf : (T.ifid, T.pc) = fetchAt u u.pc := by
        rw [← hT]; simp only [cycleDone_ifid, cycleDone_pc, hred, ifOut]; simp
      have hlu : isLoadUse (lastOf u) i = false := by
        unfold lastOf
        split
        · rename_i f' d hf' hd
          obtain ⟨-, -, hcd, -⟩ := idexOk_full hid' hd
          obtain ⟨ii, c, pc⟩ := d
          simp only at hcd
          subst hcd
          cases ii <;> try rfl
          simp [stallSignal, hd, hf, ctrlOf, Tri.asBool, bind, Except.bind, pure, Except.pure] at hs
          simpa [isLoadUse, srcs, hdec] using hs
        · rfl
      have hcostu : extraCycles (k + 1) u.archView (lastOf u) =
          (if isTakenInside i u.archView then 1 else 0) + extraCycles k T.archView (some i) := by
        simp only [extraCycles, hw, hdec, hlu, hex']; simp
      have hbu : idleCycles u (k + 1) = 3 := by simp [idleCycles, hf, hredir, hred]
      unfold remaining
      rw [hcostu, hbu]
      -- registers seen by the decoded instruction
      have hTr : T.status = .running := by rw [← hT]; exact hr
      have hxv : exec i u.archView = .next (finish ⟨exOf i f.pc (readReg u.archView.x), ctrlOf i, f.pc⟩
        (nextIndex (exOf i f.pc (readReg u.archView.x)) f.pc) u.archView) := by rw [exec_finish, hpc]
      rw [hex'] at hxv
      simp only [Host.Outcome.next.injEq] at hxv
      have hTpc : T.archView.pc = nextIndex (exOf i f.pc (readReg u.archView.x)) f.pc := by
        obtain ⟨_, _, -, hh⟩ | ⟨err, -, hh⟩ := finish_cases
          ⟨exOf i f.pc (readReg u.archView.x), ctrlOf i, f.pc⟩
          (nextIndex (exOf i f.pc (readReg u.archView.x)) f.pc) u.archView
        · rw [hxv, hh]
        · have := e5.running; rw [hxv, hh] at this; simp at this
      have hTh : u.hasInstr T.archView.pc = decide (k ≠ 0) := by
        have hl : T.archView.launch = u.launch := by rw [archView_launch, ← hT]; rfl
        rw [← e5.has]; simp [State.hasInstr, hl]
      -- taken?
      have htk : isTakenInside i u.archView =
          (match exOf i f.pc (readReg u.archView.x) with
            | .branchOutcome true g => u.hasInstr g
            | _ => false) := by
        cases i <;> simp [isTakenInside, exOf, exAdd, exSub, exLw, exSw, exBeq]
        rename_i rs rt off
        cases branchTaken (readReg u.archView.x rs) (readReg u.archView.x rt) <;>
          simp [hpc, State.hasInstr, archView_launch]
      have hmT : memOut T = .ok (memOut T |>.toOption.getD (u.dmem, .empty)) := by
        cases hmm : memOut T with
        | ok p => rfl
        | error err =>
          exfalso
          have := archView_of_memOut_error hmm
          rw [e5.running] at this; cases this
      generalize (memOut T |>.toOption.getD (u.dmem, .empty)) = p at hmT
      obtain ⟨dm', l'⟩ := p
      have hxT := exOut_ok hit hmT hTd
      -- olderX T l' = u.archView.x
      have hvx : T.archView = _ := archView_eq hmT hTr
      have hAM : u.archView.x = olderX T l' := by
        have h1 := afterMem_eq hmT
        obtain ⟨-, -, q3⟩ := afterMem_cycle hi hr hm hx hs hk
        obtain ⟨-, q4, -⟩ := q3 _ rfl hav
        rw [hT, h1] at q4
        rw [← q4]; rfl
      have hredT : redirectOr T = redirectOf (.full ⟨exOf i f.pc (readReg u.archView.x), ctrlOf i, f.pc⟩) := by
        simp only [redirectOr, redirectSignal_eq hxT, hAM]
      by_cases hk0 : k = 0
      · subst hk0
        have : isTakenInside i u.archView = false := by
          rw [htk]
          split
          · rename_i g hg
            rw [hTpc, hg] at hTh
            simpa [nextIndex] using hTh
          · rfl
        simp [this, extraCycles, idleCycles, hTd]
      · have hbT : idleCycles T k = 3 + (if T.ifid = .empty ∨ redirectOr T ≠ none then 1 else 0) := by simp [idleCycles, hk0]
        rw [hbT]
        simp only [hk0, ne_eq, not_false_eq_true, decide_true] at hTh
        -- split on taken
        cases hr' : exOf i f.pc (readReg u.archView.x) with
        | branchOutcome tk g =>
          have hb : ∀ j, isLoadUse (some i) j = false := by
            cases i <;> simp [exOf, exAdd, exSub, exLw, exSw, exBeq] at hr'
            intro j; rfl
          have hcl : extraCycles k T.archView (lastOf T) = extraCycles k T.archView (some i) := by
            rw [extraCycles_no_lw hb]
            unfold lastOf
            split
            · rename_i hd'; rw [hTd] at hd'; cases hd'; exact extraCycles_no_lw hb
            · rfl
          rw [hcl]
          cases tk with
          | true =>
            rw [hTpc, hr'] at hTh
            rw [htk, hredT]
            simp only [hr', nextIndex] at hTh ⊢
            simp [hTh, redirectOf]
            omega
          | false =>
            rw [hTpc, hr'] at hTh
            simp only [nextIndex, ← g3] at hTh
            have hTi : T.ifid ≠ .empty := by
              intro hh; rw [hh] at hTf; simp [fetchAt, hTh] at hTf
            rw [htk, hredT]
            simp only [hr', redirectOf, hTi]
            simp
            omega
        | _ =>
          rw [hTpc, hr'] at hTh
          simp only [nextIndex, ← g3] at hTh
          have hTi : ∃ f', T.ifid = .full f' := by
            cases hh : T.ifid with
            | empty => rw [hh] at hTf; simp [fetchAt, hTh] at hTf
            | full f' => exact ⟨f', rfl⟩
          obtain ⟨f', hTi⟩ := hTi
          have hcl : lastOf T = some i := by simp [lastOf, hTi, hTd]
          rw [htk, hredT, hcl]
          simp only [hr', redirectOf, hTi]
          simp
          omega

end Sys2Proof.Machine
end

