-- ==== Sys2Proof/Laws/Encoding.lean ====
section
/-! SUPPORT. The fields of a word put together and taken apart (30_encoding.md R81, R82), and the sign
extension of the immediate (R85). -/

namespace Sys2Proof

/-- Concatenation as arithmetic. -/
theorem toNat_append_add {m n : Nat} (x : BitVec m) (y : BitVec n) :
    (x ++ y).toNat = x.toNat * 2 ^ n + y.toNat := by
  rw [BitVec.toNat_append, ← Nat.shiftLeft_add_eq_or_of_lt y.isLt, Nat.shiftLeft_eq]

/-- A slice as arithmetic. -/
theorem slice_toNat (w : Word) (lo len : Nat) :
    (w.extractLsb' lo len).toNat = w.toNat / 2 ^ lo % 2 ^ len := by
  rw [BitVec.extractLsb'_toNat, Nat.shiftRight_eq_div_pow]

/-- The value of an R-format word (R81). -/
theorem rWord_toNat (op : BitVec 6) (rs rt rd shamt : BitVec 5) (funct : BitVec 6) :
    (show Word from op ++ rs ++ rt ++ rd ++ shamt ++ funct).toNat =
      op.toNat * 2 ^ 26 + rs.toNat * 2 ^ 21 + rt.toNat * 2 ^ 16 + rd.toNat * 2 ^ 11 +
        shamt.toNat * 2 ^ 6 + funct.toNat := by
  show (op ++ rs ++ rt ++ rd ++ shamt ++ funct).toNat = _
  simp only [toNat_append_add]
  omega

/-- The value of an I-format word (R82). -/
theorem iWord_toNat (op : BitVec 6) (rs rt : BitVec 5) (imm : BitVec 16) :
    (show Word from op ++ rs ++ rt ++ imm).toNat =
      op.toNat * 2 ^ 26 + rs.toNat * 2 ^ 21 + rt.toNat * 2 ^ 16 + imm.toNat := by
  show (op ++ rs ++ rt ++ imm).toNat = _
  simp only [toNat_append_add]
  omega

/-- The fields of an R-format word (R81). -/
theorem rWord_fields {op : BitVec 6} {rs rt rd shamt : BitVec 5} {funct : BitVec 6} {w : Word}
    (h : w = op ++ rs ++ rt ++ rd ++ shamt ++ funct) :
    opcodeField w = op ∧ rsField w = rs ∧ rtField w = rt ∧ rdField w = rd ∧ shamtField w = shamt ∧
      functField w = funct := by
  have hw := (congrArg BitVec.toNat h).trans (rWord_toNat op rs rt rd shamt funct)
  have := op.isLt; have := rs.isLt; have := rt.isLt; have := rd.isLt; have := shamt.isLt
  have := funct.isLt
  refine ⟨?_, ?_, ?_, ?_, ?_, ?_⟩ <;> apply BitVec.eq_of_toNat_eq <;>
    simp only [opcodeField, rsField, rtField, rdField, shamtField, functField, slice_toNat, hw] <;>
    omega

/-- The fields of an I-format word (R82). -/
theorem iWord_fields {op : BitVec 6} {rs rt : BitVec 5} {imm : BitVec 16} {w : Word}
    (h : w = op ++ rs ++ rt ++ imm) :
    opcodeField w = op ∧ rsField w = rs ∧ rtField w = rt ∧ immField w = imm := by
  have hw := (congrArg BitVec.toNat h).trans (iWord_toNat op rs rt imm)
  have := op.isLt; have := rs.isLt; have := rt.isLt; have := imm.isLt
  refine ⟨?_, ?_, ?_, ?_⟩ <;> apply BitVec.eq_of_toNat_eq <;>
    simp only [opcodeField, rsField, rtField, immField, slice_toNat, hw] <;> omega

/-- A word is its R-format fields put together. -/
theorem rWord_join (w : Word) :
    (show Word from opcodeField w ++ rsField w ++ rtField w ++ rdField w ++ shamtField w ++
      functField w) = w := by
  apply BitVec.eq_of_toNat_eq
  rw [rWord_toNat]
  have := w.isLt
  simp only [opcodeField, rsField, rtField, rdField, shamtField, functField, slice_toNat]
  omega

/-- A word is its I-format fields put together. -/
theorem iWord_join (w : Word) :
    (show Word from opcodeField w ++ rsField w ++ rtField w ++ immField w) = w := by
  apply BitVec.eq_of_toNat_eq
  rw [iWord_toNat]
  have := w.isLt
  simp only [opcodeField, rsField, rtField, immField, slice_toNat]
  omega

/-- An offset in range is the sign extension of its low half (R85). -/
theorem sext32_immOf {off : Word} (h : offsetInRange off = true) : sext32 (immOf off) = off := by
  simp only [offsetInRange, Bool.and_eq_true, decide_eq_true_eq] at h
  apply BitVec.eq_of_toInt_eq
  rw [sext32, BitVec.toInt_signExtend_of_le (by decide), immOf, BitVec.toInt_setWidth]
  have h2 := BitVec.toInt_eq_toNat_bmod off
  rw [Int.bmod_def] at *
  have := off.isLt
  simp only [Nat.reducePow, Nat.cast_ofNat] at *
  split <;> split at h2 <;> omega

/-- The low half of a sign extension is the immediate. -/
theorem immOf_sext32 (imm : Imm) : immOf (sext32 imm) = imm := by
  apply BitVec.eq_of_toNat_eq
  have := imm.isLt
  rw [immOf, BitVec.toNat_setWidth, sext32, BitVec.toNat_signExtend, BitVec.toNat_setWidth]
  split <;> omega

/-- A sign-extended immediate is in range. -/
theorem offsetInRange_sext32 (imm : Imm) : offsetInRange (sext32 imm) = true := by
  have h0 : (sext32 imm).toInt = imm.toInt := BitVec.toInt_signExtend_of_le (by decide)
  have h1 := BitVec.le_toInt imm
  have h2 := BitVec.toInt_lt (x := imm)
  simp only [Nat.reduceSub, Int.reducePow] at h1 h2
  simp only [offsetInRange, h0, Bool.and_eq_true, decide_eq_true_eq]
  omega

/-! ## Masks against fields (R83) -/

/-- A masked comparison bit by bit. -/
theorem masked_eq_iff (w mask k : Word) :
    (w &&& mask = k) ↔ ∀ i < 32, (w.getLsbD i && mask.getLsbD i) = k.getLsbD i := by
  constructor
  · rintro rfl i -; simp
  · intro h
    apply BitVec.eq_of_getLsbD_eq
    intro i hi
    rw [BitVec.getLsbD_and]
    exact h i hi

/-- A slice comparison bit by bit. -/
theorem slice_eq_iff (w : Word) (lo len : Nat) (m : BitVec len) :
    w.extractLsb' lo len = m ↔ ∀ i < len, w.getLsbD (lo + i) = m.getLsbD i := by
  constructor
  · rintro rfl i hi; simp [hi]
  · intro h
    apply BitVec.eq_of_getLsbD_eq
    intro i hi
    simpa [hi] using h i hi

theorem addRow_iff (w : Word) : (w &&& 0xFC0007FF#32 = 0x00000020#32) ↔
    (opcodeField w = 0x00#6 ∧ shamtField w = 0#5 ∧ functField w = 0x20#6) := by
  rw [masked_eq_iff, opcodeField, shamtField, functField, slice_eq_iff, slice_eq_iff, slice_eq_iff]
  simp [Nat.forall_lt_succ_right, Nat.le_one_iff_eq_zero_or_eq_one, forall_eq_or_imp]
  tauto

theorem subRow_iff (w : Word) : (w &&& 0xFC0007FF#32 = 0x00000022#32) ↔
    (opcodeField w = 0x00#6 ∧ shamtField w = 0#5 ∧ functField w = 0x22#6) := by
  rw [masked_eq_iff, opcodeField, shamtField, functField, slice_eq_iff, slice_eq_iff, slice_eq_iff]
  simp [Nat.forall_lt_succ_right, Nat.le_one_iff_eq_zero_or_eq_one, forall_eq_or_imp]
  tauto

theorem beqRow_iff (w : Word) :
    (w &&& 0xFC000000#32 = 0x10000000#32) ↔ opcodeField w = 0x04#6 := by
  rw [masked_eq_iff, opcodeField, slice_eq_iff]
  simp [Nat.forall_lt_succ_right, Nat.le_one_iff_eq_zero_or_eq_one, forall_eq_or_imp]
  try tauto

theorem lwRow_iff (w : Word) :
    (w &&& 0xFC000000#32 = 0x8C000000#32) ↔ opcodeField w = 0x23#6 := by
  rw [masked_eq_iff, opcodeField, slice_eq_iff]
  simp [Nat.forall_lt_succ_right, Nat.le_one_iff_eq_zero_or_eq_one, forall_eq_or_imp]
  try tauto

theorem swRow_iff (w : Word) :
    (w &&& 0xFC000000#32 = 0xAC000000#32) ↔ opcodeField w = 0x2B#6 := by
  rw [masked_eq_iff, opcodeField, slice_eq_iff]
  simp [Nat.forall_lt_succ_right, Nat.le_one_iff_eq_zero_or_eq_one, forall_eq_or_imp]
  try tauto

end Sys2Proof
end

