-- ==== Sys2Proof/Tests/Slice0.lean ====
section
/-! SUPPORT. Tests: the well-formedness smoke test, written-out words (95_test_vectors.md), one step per
instruction, and for each statement with hypotheses a state and operands that meet them all. -/

namespace Sys2Proof.Tests

open Sys2Proof.Machine

/-! ## Helpers -/

/-- The state a step answers, if it answers one. -/
def nextOf (o : Host.Outcome State Fault Refusal) : Option State :=
  match o with
  | .next s => some s
  | .fault _ => none
  | .refused _ => none

/-- A launch with these program words, 16 words of data memory, registers all 1 and one word of memory. -/
def launchOf (words : List Word) : Launch where
  prog := Asm.placeFrom [] 0 words
  progLen := words.length
  memWords := 16
  initRegs := Vector.replicate 32 1#32
  initMem := [(15, 7#32)]

/-- A running state of that launch with these latches. -/
def flight (words : List Word) (pc : Word) (ifid : Latch Fetched) (idex : Latch Decoded)
    (exmem : Latch Executed) (memwb : Latch MemDone) : State :=
  { State.resetOf (launchOf words) with
    pc := pc, ifid := ifid, idex := idex, exmem := exmem, memwb := memwb }

/-- The ID/EX payload of an instruction. -/
def idFull (i : Instr) (pc : Word) : Latch Decoded := .full ⟨i, ctrlOf i, pc⟩

/-! ## Well-formedness: each check refuses an ill-formed term (R85) -/

theorem test_wf_beq_refused : (Instr.beq 1#5 2#5 0x8000#32).wellFormed = false := by decide
theorem test_wf_lw_refused : (Instr.lw 1#5 0x8000#32 2#5).wellFormed = false := by decide
theorem test_wf_sw_refused : (Instr.sw 1#5 0xFFFF7FFF#32 2#5).wellFormed = false := by decide
theorem test_wf_add : (Instr.add 31#5 0#5 31#5).wellFormed = true := by decide
theorem test_wf_sub : (Instr.sub 31#5 0#5 31#5).wellFormed = true := by decide
theorem test_wf_offset_ends :
    (Instr.beq 1#5 2#5 0xFFFF8000#32).wellFormed = true ∧
    (Instr.lw 1#5 0x7FFF#32 2#5).wellFormed = true := by decide

/-! ## Decoding of written-out words (R81 to R85, V7 to V12) -/

/-- `add $1, $2, $3` -/
theorem test_decode_add :
    decode 0b000000_00010_00011_00001_00000_100000#32 = .legal (.add 1#5 2#5 3#5) := by decide
/-- `sub $31, $30, $29` -/
theorem test_decode_sub :
    decode 0b000000_11110_11101_11111_00000_100010#32 = .legal (.sub 31#5 30#5 29#5) := by decide
/-- `beq $1, $2, -32768` -/
theorem test_decode_beq :
    decode 0b000100_00001_00010_1000000000000000#32 = .legal (.beq 1#5 2#5 0xFFFF8000#32) := by decide
/-- `lw $2, -1($3)` -/
theorem test_decode_lw :
    decode 0b100011_00011_00010_1111111111111111#32 = .legal (.lw 2#5 0xFFFFFFFF#32 3#5) := by decide
/-- `sw $30, 32767($31)` -/
theorem test_decode_sw :
    decode 0b101011_11111_11110_0111111111111111#32 = .legal (.sw 30#5 0x7FFF#32 31#5) := by decide

/-- An R word with a nonzero shamt, an unknown funct and an unknown opcode are illegal (R87). -/
theorem test_decode_illegal :
    decode 0x00000060#32 = .illegal (.shamtNotZero 1#5) ∧
    decode 0x00000021#32 = .illegal (.unknownFunct 0x21#6) ∧
    decode 0x20000000#32 = .illegal (.unknownOpcode 8#6) := by decide

theorem test_table_word :
    decodeTableWord 32 0x00430820 = some (.add 1#5 2#5 3#5) ∧
    decodeTableWord 32 0xFFFFFFFF = none := by decide

/-! ## Assembly text (R95 to R98) -/

theorem test_assemble_forms :
    Asm.parseLine "lw  $2, -3($01)".toList = some (.lw 2#5 0xFFFFFFFD#32 1#5) ∧
    Asm.parseLine "add $1,$2 ,\t$3".toList = some (.add 1#5 2#5 3#5) ∧
    Asm.parseLine "beq $4, $5, +7".toList = some (.beq 4#5 5#5 7#32) := by decide

theorem test_assemble_malformed :
    Asm.parseLine "add $1, $2, $32".toList = none ∧ Asm.parseLine "ADD $1, $2, $3".toList = none ∧
    Asm.parseLine "lw $1, 5 ($2)".toList = none ∧ Asm.parseLine [] = none ∧
    Asm.parseLine "lw $1, 32768($2)".toList = none := by decide

theorem test_assemble_trims :
    Asm.assemble [" sub $1, $2, $3\t".toList] = [0x00430822#32] := by decide

/-! ## One step of each instruction -/

/-- The first step after reset runs the placed word: it is in ID/EX, decoded. -/
theorem test_step_from_reset :
    ((nextOf (step (State.reset.withFetchWord 32 0x00430820))).map fun t => (t.idex, t.status)) =
      some (idFull (.add 1#5 2#5 3#5) 0#32, .running) := by decide

/-- The state it starts from is the one after cycle 1, the fetch (R232). -/
theorem test_fetch_word_on_reset :
    (State.reset.withFetchWord 32 0x00430820).ifid = .full ⟨0x00430820#32, 0#32⟩ ∧
    (State.reset.withFetchWord 32 0x00430820).cycle = 1#64 := by decide

/-- V1-style: 1 + 1 into register 3; register 0 stays 0. -/
theorem test_exec_add :
    ((nextOf (exec (.add 3#5 1#5 2#5) (flight [] 0#32 .empty .empty .empty .empty))).map
      fun t => (readReg t.x 3#5, t.pc)) = some (2#32, 1#32) := by decide
theorem test_exec_add_zero :
    ((nextOf (exec (.add 0#5 1#5 2#5) (flight [] 0#32 .empty .empty .empty .empty))).map
      fun t => readReg t.x 0#5) = some 0#32 := by decide
/-- 0 - 1 wraps (R160). -/
theorem test_exec_sub_wraps :
    ((nextOf (exec (.sub 1#5 0#5 1#5) (flight [] 0#32 .empty .empty .empty .empty))).map
      fun t => readReg t.x 1#5) = some 0xFFFFFFFF#32 := by decide
/-- A taken branch of displacement -1 at index 0 goes to the top of the index space (R172). -/
theorem test_exec_beq_taken :
    ((nextOf (exec (.beq 1#5 2#5 0xFFFFFFFF#32) (flight [] 0#32 .empty .empty .empty .empty))).map
      fun t => t.pc) = some 0xFFFFFFFF#32 := by decide
theorem test_exec_beq_not_taken :
    ((nextOf (exec (.beq 0#5 2#5 5#32) (flight [] 0#32 .empty .empty .empty .empty))).map
      fun t => t.pc) = some 1#32 := by decide
/-- The last word of the extent, and the first word past it (R181). -/
theorem test_exec_lw :
    ((nextOf (exec (.lw 2#5 14#32 1#5) (flight [] 0#32 .empty .empty .empty .empty))).map
      fun t => readReg t.x 2#5) = some 7#32 := by decide
theorem test_exec_lw_past_extent :
    ((nextOf (exec (.lw 2#5 15#32 1#5) (flight [] 0#32 .empty .empty .empty .empty))).map
      fun t => t.status) = some (.error (.addressError 16#32 0#32)) := by decide
theorem test_exec_sw :
    ((nextOf (exec (.sw 2#5 3#32 1#5) (flight [] 0#32 .empty .empty .empty .empty))).map
      fun t => t.dmem) = some [(4, 1#32), (15, 7#32)] := by decide
/-- Base 1 and offset -2 is index `2 ^ 32 - 1`, outside the extent (R182). -/
theorem test_exec_sw_wraps :
    ((nextOf (exec (.sw 2#5 0xFFFFFFFE#32 1#5) (flight [] 0#32 .empty .empty .empty .empty))).map
      fun t => t.status) = some (.error (.addressError 0xFFFFFFFF#32 0#32)) := by decide

/-! ## States that meet the hypotheses of the statements -/

/-- Load-use: LW in ID/EX, its consumer in IF/ID, an SW to the last word in EX/MEM, an ADD in MEM/WB. -/
def loadUse : State :=
  flight [encode (.add 3#5 1#5 1#5), encode (.sw 3#5 14#32 1#5), encode (.lw 2#5 14#32 1#5),
      encode (.add 4#5 2#5 3#5)] 4#32
    (.full ⟨encode (.add 4#5 2#5 3#5), 3#32⟩) (idFull (.lw 2#5 14#32 1#5) 2#32)
    (.full ⟨.storeAddr 15#32 3#5 2#32, ctrlOf (.sw 3#5 14#32 1#5), 1#32⟩)
    (.full ⟨.aluPass .add 3#5 2#32, ctrlOf (.add 3#5 1#5 1#5), 0#32⟩)

/-- Double hazard: ADD in ID/EX reads what EX/MEM and MEM/WB both write. -/
def doubleHazard : State :=
  flight [encode (.add 5#5 1#5 1#5), encode (.sub 5#5 5#5 1#5), encode (.add 7#5 5#5 5#5),
      encode (.sw 7#5 0#32 1#5)] 4#32
    (.full ⟨encode (.sw 7#5 0#32 1#5), 3#32⟩) (idFull (.add 7#5 5#5 5#5) 2#32)
    (.full ⟨.aluResult .sub 5#5 1#32, ctrlOf (.sub 5#5 5#5 1#5), 1#32⟩)
    (.full ⟨.aluPass .add 5#5 2#32, ctrlOf (.add 5#5 1#5 1#5), 0#32⟩)

/-- A BEQ in ID/EX with the given comparand and displacement; the word behind it is illegal. -/
def branching (rt : RegIdx) (off : Word) : State :=
  flight [encode (.beq 1#5 rt off), 0xFFFFFFFF#32, encode (.add 2#5 1#5 1#5)] 2#32
    (.full ⟨0xFFFFFFFF#32, 1#32⟩) (idFull (.beq 1#5 rt off) 0#32) .empty .empty

/-- The same with a legal word behind the branch. -/
def branchingLegal : State :=
  flight [encode (.beq 1#5 0#5 1#32), encode (.add 2#5 1#5 1#5)] 2#32
    (.full ⟨encode (.add 2#5 1#5 1#5), 1#32⟩) (idFull (.beq 1#5 0#5 1#32) 0#32) .empty .empty

/-- An LW whose address is the first past the extent is in EX/MEM; an illegal word is in IF/ID. -/
def badLoad : State :=
  flight [encode (.lw 2#5 15#32 1#5), encode (.add 3#5 1#5 1#5), 0xFFFFFFFF#32] 3#32
    (.full ⟨0xFFFFFFFF#32, 2#32⟩) (idFull (.add 3#5 1#5 1#5) 1#32)
    (.full ⟨.loadAddr 2#5 16#32, ctrlOf (.lw 2#5 15#32 1#5), 0#32⟩) .empty

/-- The same LW is still in ID/EX and the illegal word right behind it is in IF/ID. -/
def overtaken : State :=
  flight [encode (.lw 2#5 15#32 1#5), 0xFFFFFFFF#32] 2#32
    (.full ⟨0xFFFFFFFF#32, 1#32⟩) (idFull (.lw 2#5 15#32 1#5) 0#32) .empty .empty

/-- A load that is in the extent is in EX/MEM. -/
def goodLoad : State :=
  flight [encode (.lw 2#5 14#32 1#5)] 1#32 .empty .empty
    (.full ⟨.loadAddr 2#5 15#32, ctrlOf (.lw 2#5 14#32 1#5), 0#32⟩) .empty

/-- A state of no run: an LW in EX/MEM whose destination the instruction in ID/EX reads. -/
def broken : State :=
  flight [] 0#32 .empty (idFull (.add 3#5 2#5 2#5) 1#32)
    (.full ⟨.loadAddr 2#5 15#32, ctrlOf (.lw 2#5 14#32 1#5), 0#32⟩) .empty

/-- Control signals that are all `X`. -/
def noCtrl : Ctrl := ⟨.dontCare, .dontCare, .dontCare, .dontCare, .dontCare, .dontCare, .dontCare, none⟩

/-- A drained core with this one instruction at `pc`. -/
def drained (i : Instr) : State := flight [encode i] 0#32 .empty .empty .empty .empty

/-! ## Witnesses: encoding -/

theorem witness_EncoderIsTheInverseOfDecode :
    (Instr.lw 1#5 0xFFFF8000#32 31#5).wellFormed = true ∧
    decode 0xFFFFFFFF#32 ≠ .legal (.lw 1#5 0#32 1#5) ∧
    decode 0x10220005#32 = .legal (.beq 1#5 2#5 5#32) := by decide
theorem witness_OpcodeMapDecidesEveryWord :
    ∀ row ∈ opcodeRows, inRow 0x00000000#32 row = false := by simp [opcodeRows, inRow]
theorem witness_SourceRegistersOfAWord :
    decode 0x00430820#32 = .legal (.add 1#5 2#5 3#5) ∧
    decode 0x00430822#32 = .legal (.sub 1#5 2#5 3#5) ∧
    decode 0x10220005#32 = .legal (.beq 1#5 2#5 5#32) ∧
    decode 0xAC220005#32 = .legal (.sw 2#5 5#32 1#5) ∧
    decode 0x8C220005#32 = .legal (.lw 2#5 5#32 1#5) ∧
    decode 0xFFFFFFFF#32 = .illegal (.unknownOpcode 0x3F#6) := by decide
theorem witness_DestinationFollowsRegDst :
    decode 0x8C220005#32 = .legal (.lw 2#5 5#32 1#5) := by decide
theorem witness_DontCareIsNeverReadAsABit :
    ({ loadUse with idex := .full ⟨.lw 2#5 14#32 1#5, noCtrl, 2#32⟩ } : State).idex =
      .full ⟨.lw 2#5 14#32 1#5, noCtrl, 2#32⟩ ∧
    loadUse.ifid = .full ⟨encode (.add 4#5 2#5 3#5), 3#32⟩ ∧ noCtrl.memRead = .dontCare ∧
    ({ loadUse with exmem := .full ⟨.aluResult .add 1#5 0#32, noCtrl, 0#32⟩ } : State).exmem =
      .full ⟨.aluResult .add 1#5 0#32, noCtrl, 0#32⟩ ∧ noCtrl.regWrite = .dontCare ∧
    ({ goodLoad with exmem := .empty, memwb := .full ⟨.noWriteBack, noCtrl, 0#32⟩ } : State).memwb =
      .full ⟨.noWriteBack, noCtrl, 0#32⟩ := by decide

/-! ## Witnesses: instructions on their own -/

theorem witness_ArithmeticWrapsModulo : (1#5 : RegIdx) ≠ 0#5 := by decide
theorem witness_LwLoadsTheWord :
    (readReg (drained (.lw 2#5 14#32 1#5)).x 1#5 + 14#32).toNat <
      (drained (.lw 2#5 14#32 1#5)).launch.memWords := by decide
theorem witness_SwStoresTheWord :
    Memory.wf (drained (.sw 2#5 14#32 1#5)).dmem = true ∧
    (readReg (drained (.sw 2#5 14#32 1#5)).x 1#5 + 14#32).toNat <
      (drained (.sw 2#5 14#32 1#5)).launch.memWords := by decide
theorem witness_OutOfExtentAccessIsAnAddressError :
    (drained (.lw 2#5 15#32 1#5)).launch.memWords ≤
      (readReg (drained (.lw 2#5 15#32 1#5)).x 1#5 + 15#32).toNat := by decide
theorem witness_LoadAfterStoreSeesTheStore :
    ∃ t u, Memory.wf (drained (.sw 2#5 14#32 1#5)).dmem = true ∧
      (readReg (drained (.sw 2#5 14#32 1#5)).x 1#5 + 14#32).toNat <
        (drained (.sw 2#5 14#32 1#5)).launch.memWords ∧ (3#5 : RegIdx) ≠ 0#5 ∧
      exec (.sw 2#5 14#32 1#5) (drained (.sw 2#5 14#32 1#5)) = .next t ∧
      exec (.lw 3#5 14#32 1#5) t = .next u := ⟨_, _, by decide, by decide, by decide, rfl, rfl⟩

/-! ## Witnesses: forwarding and stall -/

/-- Clause 1, and clauses 2 to 4 with EX/MEM out of the way. -/
theorem witness_ForwardingPriority :
    doubleHazard.exmem = .full ⟨.aluResult .sub 5#5 1#32, ctrlOf (.sub 5#5 5#5 1#5), 1#32⟩ ∧
    (ctrlOf (.sub 5#5 5#5 1#5)).regWrite = .one ∧ (5#5 : RegIdx) ≠ 0#5 ∧
    ({ doubleHazard with exmem := .empty } : State).memwb =
      .full ⟨.aluPass .add 5#5 2#32, ctrlOf (.add 5#5 1#5 1#5), 0#32⟩ ∧
    ({ goodLoad with exmem := .empty, memwb := .full ⟨.loaded 2#5 7#32, ctrlOf (.lw 2#5 14#32 1#5), 0#32⟩ }
      : State).memwb = .full ⟨.loaded 2#5 7#32, ctrlOf (.lw 2#5 14#32 1#5), 0#32⟩ ∧
    branchingLegal.exmem = .empty ∧ branchingLegal.memwb = .empty := by decide
theorem witness_LoadAddressIsNeverForwarded :
    broken.exmem = .full ⟨.loadAddr 2#5 15#32, ctrlOf (.lw 2#5 14#32 1#5), 0#32⟩ ∧
    (ctrlOf (.lw 2#5 14#32 1#5)).regWrite = .one ∧ 2#5 ∈ srcsOf (.add 3#5 2#5 2#5) ∧
    broken.runsCycle = true ∧ broken.inExtent 15#32 = true := by decide
theorem witness_ForwardedOperandIsTheProgramOrderValue :
    doubleHazard.inv = true ∧ doubleHazard.idex = idFull (.add 7#5 5#5 5#5) 2#32 ∧
    5#5 ∈ srcsOf (.add 7#5 5#5 5#5) ∧ memClean doubleHazard = true := by decide
theorem witness_OperandsDoNotDependOnWriteBackOrder :
    doubleHazard.inv = true ∧ badLoad.inv = true := by decide
theorem witness_StallIsTheLoadUseCondition :
    loadUse.idex = .full ⟨.lw 2#5 14#32 1#5, ctrlOf (.lw 2#5 14#32 1#5), 2#32⟩ := by decide
theorem witness_StallFreezesFetchAndDecode :
    loadUse.inv = true ∧ loadUse.runsCycle = true ∧ memClean loadUse = true ∧
    stallSignal loadUse = .ok true := ⟨by decide, by decide, by decide, rfl⟩
theorem witness_StallLastsOneCycle :
    ∃ t u, step loadUse = .next t ∧ t.status = .running ∧ step t = .next u ∧ u.status = .running :=
  ⟨_, _, rfl, rfl, rfl, rfl⟩

/-! ## Witnesses: branches -/

/-- The target is the last instruction, and the first index past the program (N = 3). -/
theorem witness_TakenBranchSquashesAndFetchesTheTarget :
    (branching 1#5 2#32).inv = true ∧ (branching 1#5 2#32).runsCycle = true ∧
    memClean (branching 1#5 2#32) = true ∧
    (branching 1#5 2#32).idex = idFull (.beq 1#5 1#5 2#32) 0#32 ∧
    (0#32 + 2#32).toNat < (branching 1#5 2#32).launch.progLen := by decide
theorem witness_TakenBranch_outside :
    (branching 1#5 3#32).inv = true ∧ (branching 1#5 3#32).runsCycle = true ∧
    memClean (branching 1#5 3#32) = true ∧
    (branching 1#5 3#32).idex = idFull (.beq 1#5 1#5 3#32) 0#32 ∧
    (branching 1#5 3#32).launch.progLen ≤ (0#32 + 3#32).toNat := by decide
theorem witness_TakenBranch_operands :
    fwd (branching 1#5 2#32) (wbStage (branching 1#5 2#32)).x 1#5 = .ok 1#32 := rfl
theorem witness_NotTakenBranchCostsNothing :
    branchingLegal.inv = true ∧ branchingLegal.runsCycle = true ∧ memClean branchingLegal = true ∧
    idClean branchingLegal = true ∧ branchingLegal.idex = idFull (.beq 1#5 0#5 1#32) 0#32 ∧
    branchingLegal.ifid = .full ⟨encode (.add 2#5 1#5 1#5), 1#32⟩ ∧
    branchingLegal.launch.progLen ≤ branchingLegal.pc.toNat := by decide
theorem witness_NotTakenBranch_operands :
    fwd branchingLegal (wbStage branchingLegal).x 1#5 = .ok 1#32 ∧
    fwd branchingLegal (wbStage branchingLegal).x 0#5 = .ok 0#32 := ⟨rfl, rfl⟩
/-- The other clauses: nothing in IF/ID, and an instruction at `pc`. -/
theorem witness_NotTakenBranch_fetches :
    let s := flight [encode (.beq 1#5 0#5 1#32), encode (.add 2#5 1#5 1#5)] 1#32 .empty
      (idFull (.beq 1#5 0#5 1#32) 0#32) .empty .empty
    s.inv = true ∧ s.runsCycle = true ∧ s.ifid = .empty ∧ s.pc.toNat < s.launch.progLen := by decide

/-! ## Witnesses: the cycle -/

theorem witness_CompletionOnlySetsDone :
    let s := flight [] 0#32 .empty .empty .empty .empty
    s.rst = false ∧ s.status = .running ∧ s.launch.progLen ≤ s.pc.toNat := by decide
theorem witness_DoneErrorAndResetHoldTheState :
    ({ loadUse with status := .done } : State).status = .done ∧
    ({ loadUse with status := .error (.formatError 0#32 0#32) } : State).status =
      .error (.formatError 0#32 0#32) ∧ ({ loadUse with rst := true } : State).rst = true := by decide
/-- A cycle that runs, writes a register and stores. -/
theorem witness_cycle_that_runs :
    loadUse.runsCycle = true ∧ Memory.wf loadUse.dmem = true ∧ writtenNow loadUse = some (3#5, 2#32) ∧
    storedNow loadUse = some (15#32, 2#32) ∧ (nextOf (step loadUse)).isSome = true := by decide
theorem witness_MemStageFillsMemWb :
    ∃ t, goodLoad.runsCycle = true ∧ step goodLoad = .next t ∧ t.status = .running :=
  ⟨_, by decide, rfl, rfl⟩
theorem witness_ExStageComputesEachInstruction :
    doubleHazard.inv = true ∧ doubleHazard.runsCycle = true ∧ memClean doubleHazard = true ∧
    idClean doubleHazard = true ∧ doubleHazard.idex = idFull (.add 7#5 5#5 5#5) 2#32 := by decide
/-- A redirect, a stall and neither. -/
theorem witness_InstructionsMoveOneLatchACycle :
    redirectSignal (branching 1#5 2#32) = .ok (some 2#32) ∧ redirectSignal loadUse = .ok none ∧
    stallSignal loadUse = .ok true ∧ redirectSignal doubleHazard = .ok none ∧
    stallSignal doubleHazard = .ok false := ⟨rfl, rfl, rfl, rfl, rfl⟩
theorem witness_StallAndRedirectNeverCoincide :
    stallSignal loadUse = .ok true ∧ redirectSignal (branching 1#5 2#32) = .ok (some 2#32) := ⟨rfl, rfl⟩

/-! ## Witnesses: fatal errors -/

theorem witness_FormatErrorAborts :
    overtaken.inv = true ∧ overtaken.runsCycle = true ∧ memClean overtaken = true ∧
    decodesNext overtaken = .full ⟨0xFFFFFFFF#32, 1#32⟩ ∧
    decode 0xFFFFFFFF#32 = .illegal (.unknownOpcode 0x3F#6) := by decide
theorem witness_AddressErrorAborts :
    badLoad.runsCycle = true ∧
    badLoad.exmem = .full ⟨.loadAddr 2#5 16#32, ctrlOf (.lw 2#5 15#32 1#5), 0#32⟩ ∧
    badLoad.launch.memWords ≤ (16#32 : Word).toNat := by decide
theorem witness_ErrorCodesAndInformation :
    ({ loadUse with status := .error (.addressError 16#32 0#32) } : State).status =
      .error (.addressError 16#32 0#32) ∧ loadUse.status = .running := by decide
theorem witness_AddressErrorIsPrecise :
    ∃ t, badLoad.inv = true ∧ badLoad.runsCycle = true ∧ step badLoad = .next t ∧
      t.status = .error (.addressError 16#32 0#32) := ⟨_, by decide, by decide, rfl, rfl⟩
/-- The FormatError overtakes the AddressError of the LW before it. -/
theorem witness_FormatErrorOrder :
    ∃ t, overtaken.inv = true ∧ overtaken.runsCycle = true ∧ step overtaken = .next t ∧
      t.status = .error (.formatError 0xFFFFFFFF#32 1#32) := ⟨_, by decide, by decide, rfl, rfl⟩

/-! ## Witnesses: reset, the host, the invariant -/

/-- A port sample with every write-enable set, at boundary values. -/
def allPorts (rst : Bool) : PortIn :=
  ⟨rst, 0x100000000#33, true, 0xFFFFFFFF#32, 1#32, 0x100000000#33, true, 0#32, 0#32, true, 31#5, 5#32⟩

theorem witness_launch_wf : (launchOf [0x00000020#32]).wf = true ∧ Launch.unloaded.wf = true := by decide
theorem witness_ResetPinAndLoadPorts :
    (allPorts true).rst = true ∧ (allPorts false).rst = false ∧
    ({ loadUse with rst := true } : State).rst = true ∧ loadUse.rst = false := by decide
theorem witness_LoadPortsFillTheLaunch :
    (allPorts true).progLen.toNat ≤ 2 ^ 32 ∧ (allPorts true).memWords.toNat ≤ 2 ^ 32 ∧
    (allPorts true).progWe = true ∧ (allPorts true).hmWe = true ∧ (allPorts true).hrWe = true := by decide
theorem witness_SnapshotAfterRunningCycles :
    ∃ t u, step loadUse = .next t ∧ loadUse.runsCycle = true ∧ t.status = .running ∧
      step badLoad = .next u ∧ u.status ≠ .running :=
  ⟨_, _, rfl, by decide, rfl, rfl, nofun⟩
theorem witness_FinalResultsOnDone : ({ loadUse with status := .done } : State).status = .done := rfl
theorem witness_HostReadsAfterTheRun :
    let s : State := { loadUse with status := .done }
    s.rst = false ∧ s.status ≠ .running ∧ (15#32 : Word).toNat < s.launch.memWords ∧
    loadUse.rst = false ∧ loadUse.status = .running := by decide
theorem witness_FirstCycleFetchesIndexZero :
    1 ≤ (launchOf [0x00000020#32]).progLen ∧ (launchOf []).progLen = 0 := by decide
theorem witness_NextFetchWordIsFetched :
    Memory.wf loadUse.launch.prog = true ∧ 0xFFFFFFFF < 2 ^ 32 := by decide
/-- A legal word, an illegal word, and the largest word. -/
theorem witness_PlacedWordRunsAtTheNextStep :
    Memory.wf loadUse.launch.prog = true ∧ 0xFFFFFFFF < 2 ^ 32 ∧
    decode (BitVec.ofNat 32 0x00430820) = .legal (.add 1#5 2#5 3#5) ∧
    decode (BitVec.ofNat 32 0xFFFFFFFF) = .illegal (.unknownOpcode 0x3F#6) := by decide
/-- The edge that asserts `rst` in a running core presents no snapshot (log entry 20). -/
theorem test_no_snapshot_on_reset :
    ((nextOf (portEdge (allPorts true) loadUse)).map fun t => snapshotAfter loadUse t) = some none := by
  decide
theorem witness_StepKeepsTheInvariant :
    ∃ t, loadUse.inv = true ∧ step loadUse = .next t ∧ t.inv = true := ⟨_, by decide, rfl, by decide⟩
theorem witness_InvariantStateAlwaysSteps : badLoad.inv = true ∧ (branching 1#5 2#32).inv = true := by decide

/-! ## Witnesses: the pipeline against one instruction at a time -/

theorem witness_DrainedCoreRunsTheDecodedInstruction :
    ∃ t, (drained (.sw 2#5 14#32 1#5)).hasInstr 0#32 = true ∧
      decode ((drained (.sw 2#5 14#32 1#5)).progWord 0#32) = .legal (.sw 2#5 14#32 1#5) ∧
      (drained (.sw 2#5 14#32 1#5)).hasInstr (0#32 + 1#32) = false ∧
      exec (.sw 2#5 14#32 1#5) (drained (.sw 2#5 14#32 1#5)) = .next t ∧ t.status = .running ∧
      t.hasInstr t.pc = false := ⟨_, by decide, by decide, by decide, rfl, rfl, by decide⟩
/-- The error clause. -/
theorem witness_DrainedCore_error :
    ∃ t, (drained (.lw 2#5 15#32 1#5)).hasInstr (0#32 + 1#32) = false ∧
      decode ((drained (.lw 2#5 15#32 1#5)).progWord 0#32) = .legal (.lw 2#5 15#32 1#5) ∧
      exec (.lw 2#5 15#32 1#5) (drained (.lw 2#5 15#32 1#5)) = .next t ∧
      t.status = .error (.addressError 16#32 0#32) := ⟨_, by decide, by decide, rfl, rfl⟩
theorem witness_StepRunsTheDecodedInstruction :
    doubleHazard.inv = true ∧ doubleHazard.runsCycle = true ∧
    doubleHazard.archView.status = .running ∧
    decodesNext doubleHazard = .full ⟨encode (.sw 7#5 0#32 1#5), 3#32⟩ ∧
    decode (encode (.sw 7#5 0#32 1#5)) = .legal (.sw 7#5 0#32 1#5) := by decide
/-- A stall cycle, and one with an AddressError on its way. -/
theorem witness_OtherCyclesKeepTheView :
    ∃ t, loadUse.inv = true ∧ loadUse.runsCycle = true ∧ step loadUse = .next t ∧
      t.status = .running ∧ decodesNext loadUse = .empty ∧ overtaken.archView.status ≠ .running :=
  ⟨_, by decide, by decide, rfl, rfl, by decide, by decide⟩
theorem witness_PipelineEndsDoneWhenSeqHalts :
    ∃ t, (launchOf [0x00000020#32]).wf = true ∧
      SeqHalts (State.resetOf (launchOf [0x00000020#32])) t := ⟨_, by decide, 2, rfl, rfl⟩
theorem witness_PipelineEndsInErrorWhenSeqStops :
    ∃ t e, (launchOf [0xFFFFFFFF#32]).wf = true ∧
      SeqStops (State.resetOf (launchOf [0xFFFFFFFF#32])) t e := ⟨_, _, by decide, 1, rfl, rfl⟩
/-- `beq $0, $0, 0` is one step of `Seq` that changes nothing. -/
theorem seqRun_loop (n : Nat) :
    seqRun n (State.resetOf (launchOf [0x10000000#32])) =
      .next (State.resetOf (launchOf [0x10000000#32])) := by
  induction n with
  | zero => rfl
  | succ n ih =>
    have h : seqStep (State.resetOf (launchOf [0x10000000#32])) =
      .next (State.resetOf (launchOf [0x10000000#32])) := rfl
    simp only [seqRun, h, ih]
theorem witness_PipelineRunsForeverWhenSeqDoes :
    (launchOf [0x10000000#32]).wf = true ∧
    ∀ n, ∃ t, seqRun n (State.resetOf (launchOf [0x10000000#32])) = .next t ∧ t.status = .running :=
  ⟨by decide, fun n => ⟨_, seqRun_loop n, rfl⟩⟩
theorem witness_CycleCountOfACompletedRun :
    ∃ u, (launchOf [0x00000020#32]).wf = true ∧
      EndsDone (State.resetOf (launchOf [0x00000020#32])) u ∧ u.cycle = 5#64 :=
  ⟨_, by decide, ⟨6, rfl, rfl⟩, rfl⟩

/-! ## Witnesses: assembler -/

theorem witness_DisassemblyAssemblesBack :
    (Instr.lw 31#5 0xFFFF8000#32 0#5).wellFormed = true := by decide
theorem witness_MalformedLinesAssembleToTheIllegalWord :
    Asm.parseLine "nop".toList = none ∧
    Asm.parseLine "sw $31, -32768($0)".toList = some (.sw 31#5 0xFFFF8000#32 0#5) := by decide

end Sys2Proof.Tests
end

section
/-! PROOFS. The statements about the state (10_state.md): the order of WB and EX (R25), the don't-care signals
(R33), the latches (R34), the counter (R39), the absorbing statuses (R40) and the reset state (R46). -/

namespace Sys2Proof.Machine

/-! ## The multiplexer before and after WB (R25) -/

/-- What MEM/WB offers for a register is what WB writes to it, so reading the register file after WB adds
nothing: the multiplexer has already taken the offer. -/
theorem or_wbOffer_getD_wbStage (s : State) (r : RegIdx) (o : Option Word) :
    (o.or (wbOffer s r)).getD (readReg (wbStage s).x r) = (o.or (wbOffer s r)).getD (readReg s.x r) := by
  rw [wb_read]
  cases o with
  | some v => rfl
  | none => cases wbOffer s r <;> rfl

/-- Settles O19: either an LW in EX/MEM matches, and the multiplexer breaches whatever the register file holds,
or its value is an offer of EX/MEM or of MEM/WB, or a register that WB does not write. -/
theorem operandsDoNotDependOnWriteBackOrder : Obligations.OperandsDoNotDependOnWriteBackOrder := by
  intro s r hi
  obtain ⟨-, -, -, -, hex, hwb, -⟩ := inv_iff.mp hi
  by_cases hload : ∃ e a, s.exmem = .full e ∧ e.result = .loadAddr r a ∧ r ≠ 0#5
  · obtain ⟨e, a, he, hr, h0⟩ := hload
    rw [fwd_load _ hex he hr h0, fwd_load _ hex he hr h0]
  · have hl : ∀ e d a, s.exmem = .full e → e.result = .loadAddr d a → d = r → d = 0#5 := by
      rintro e d a he hr rfl
      by_contra h0
      exact hload ⟨e, a, he, hr, h0⟩
    rw [fwd_ok _ hex hwb hl, fwd_ok _ hex hwb hl, or_wbOffer_getD_wbStage]

/-! ## The counter (R39) -/

/-- A cycle of the stages is counted, whether it runs to its end or MEM or ID aborts it (R114, R203). -/
theorem runStages_cycle {s t : State} (h : runStages s = .next t) : t.cycle = s.cycle + 1#64 := by
  obtain ⟨_, -, rfl⟩ | ⟨_, _, _, _, -, -, -, ⟨_, -, rfl⟩ | ⟨_, -, rfl⟩⟩ := runStages_cases h
  · exact abort_cycle ..
  · exact abort_cycle ..
  · exact cycleDone_cycle ..

/-- A step in which no cycle runs is not counted. -/
theorem step_idle_cycle {s t : State} (hc : s.runsCycle = false) (h : step s = .next t) :
    t.cycle = s.cycle := by
  rw [step_idle hc] at h
  cases h
  split <;> rfl

/-- Settles O28, by whether a cycle runs. -/
theorem cycleCounterCountsRunningCycles : Obligations.CycleCounterCountsRunningCycles := by
  intro s t h
  cases hc : s.runsCycle with
  | false => simpa using step_idle_cycle hc h
  | true => simpa using runStages_cycle (step_runs hc ▸ h)

/-! ## One latch a cycle (R34, R235) -/

section

variable {s : State} {dmem : Memory} {memwb : Latch MemDone} {exmem : Latch Executed}
  {idex : Latch Decoded} {fetch : Latch Fetched × Word}

/-- MEM hands on the instruction in EX/MEM. -/
theorem memwbPc_cycleDone (h : memOut s = .ok (dmem, memwb)) :
    memwbPc (cycleDone s dmem memwb exmem idex fetch) = exmemPc s := by
  obtain ⟨he, rfl, -⟩ | ⟨e, m, he, rfl, ha⟩ := memOut_latch h
  · simp [memwbPc, exmemPc, he]
  · obtain ⟨-, hpc, -⟩ := memAccess_cases ha
    simp [memwbPc, exmemPc, he, hpc]

/-- EX hands on the instruction in ID/EX. -/
theorem exmemPc_cycleDone (h : exOut s = .ok exmem) :
    exmemPc (cycleDone s dmem memwb exmem idex fetch) = idexPc s := by
  obtain ⟨hd, rfl⟩ | ⟨d, r, hd, -, rfl⟩ := exOut_latch h <;> simp [exmemPc, idexPc, hd]

/-- ID puts a bubble into ID/EX when it squashes and when it stalls (R136, R131). -/
theorem idexPc_cycleDone_bubble {redirect : Option Word} {stall : Bool}
    (h : idOut s redirect stall = .ok idex) (hb : redirect ≠ none ∨ stall = true) :
    idexPc (cycleDone s dmem memwb exmem idex fetch) = none := by
  obtain ⟨hk, -⟩ | ⟨hr, hs, -⟩ := idOut_cases s redirect stall
  · cases hk ▸ h
    rfl
  · simp [hr, hs] at hb

/-- With neither a redirect nor a stall, ID hands on the instruction in IF/ID. -/
theorem idexPc_cycleDone_decode (h : idOut s none false = .ok idex) :
    idexPc (cycleDone s dmem memwb exmem idex fetch) = ifidPc s := by
  obtain ⟨hk, hn⟩ | ⟨-, -, f, hf, ⟨_, -, hk⟩ | ⟨i, -, hk⟩⟩ := idOut_cases s none false <;>
    cases hk ▸ h
  · have hf : s.ifid = .empty := by simpa using hn
    simp [idexPc, ifidPc, hf]
  · simp [idexPc, ifidPc, hf]

end

/-- Settles O33: a cycle that raised nothing is `cycleDone`, and each of its latches is its stage's output. -/
theorem instructionsMoveOneLatchACycle : Obligations.InstructionsMoveOneLatchACycle := by
  intro s t hc ht htr
  obtain ⟨dmem, memwb, exmem, stall, idex, hm, hx, hs, hid, rfl⟩ := step_ok_cases hc ht htr
  rw [redirectSignal_eq hx, hs]
  refine ⟨memwbPc_cycleDone hm, exmemPc_cycleDone hx, ?_, ?_, ?_⟩
  · rintro ⟨target, hr⟩
    exact idexPc_cycleDone_bubble hid (.inl (by simp [Except.ok.inj hr]))
  · rintro - hstall
    cases hstall
    exact ⟨idexPc_cycleDone_bubble hid (.inr rfl), rfl⟩
  · intro hr hstall
    cases hstall
    rw [Except.ok.inj hr] at hid ⊢
    exact idexPc_cycleDone_decode hid

/-! ## Don't-care signals (R33) -/

theorem Tri.ne_dontCare_of_asBool {t : Tri} {b : Bool} (h : t.asBool = .ok b) : t ≠ .dontCare := by
  rintro rfl
  cases h

/-- The row of R88 of every instruction lets RegWrite and MemRead be read. -/
theorem ctrlDecides (i : Instr) : Laws.CtrlDecides.Statement i := by
  cases i with
  | add rd rs rt => exact Laws.CtrlDecides.add rd rs rt
  | sub rd rs rt => exact Laws.CtrlDecides.sub rd rs rt
  | beq rs rt off => exact Laws.CtrlDecides.beq rs rt off
  | lw rt off rs => exact Laws.CtrlDecides.lw rt off rs
  | sw rt off rs => exact Laws.CtrlDecides.sw rt off rs

theorem stallSignal_dontCare {s : State} {d : Decoded} {f : Fetched} (hd : s.idex = .full d)
    (hf : s.ifid = .full f) (h : d.ctrl.memRead = .dontCare) :
    stallSignal s = .error .readDontCare := by
  simp only [stallSignal, hd, hf, h]
  rfl

theorem forwardExMem_dontCare {e : Executed} (h : e.ctrl.regWrite = .dontCare) (r : RegIdx) :
    forwardExMem (.full e) r = .error .readDontCare := by
  simp only [forwardExMem, h]
  rfl

theorem forwardMemWb_dontCare {m : MemDone} (h : m.ctrl.regWrite = .dontCare) (r : RegIdx) :
    forwardMemWb (.full m) r = .error .readDontCare := by
  simp only [forwardMemWb, h]
  rfl

/-- Settles O8: the control-signal table for the instructions, and each decision's first read for the
payloads that hold an `X`. -/
theorem dontCareIsNeverReadAsABit : Obligations.DontCareIsNeverReadAsABit := by
  refine ⟨fun i => ?_, fun s d f hd hf h => stallSignal_dontCare hd hf h, fun s x r e he h => ?_,
    fun s x r m he hm h => ?_⟩
  · obtain ⟨hw, hr⟩ := ctrlDecides i
    exact ⟨Tri.ne_dontCare_of_asBool hw, Tri.ne_dontCare_of_asBool hr⟩
  · rw [forward, he, forwardExMem_dontCare h]
    rfl
  · rw [forward, he, hm, forwardMemWb_dontCare h]
    rfl

/-! ## Absorbing statuses and the reset pin (R40, R230) -/

theorem step_in_reset {s : State} (h : s.rst = true) : step s = .next s := by
  have hc : s.runsCycle = false := by simp [State.runsCycle, h]
  simp [step_idle hc, h]

/-- Settles O27: none of the three states runs a cycle (R110, R230), and out of RUNNING or in reset a step that
runs none does not complete the run either. -/
theorem doneErrorAndResetHoldTheState : Obligations.DoneErrorAndResetHoldTheState := by
  intro s e
  refine ⟨fun h => step_stopped ?_, fun h => step_stopped ?_, step_in_reset⟩
  · simp [h]
  · simp [h]

/-! ## The state after reset (R46) -/

/-- Settles O37: every component but the data memory is what `State.resetOf` names, and that one is INIT_MEM
restricted to the extent. -/
theorem resetState : Obligations.ResetState := by
  intro l _
  exact ⟨fun _ => rfl, rfl, rfl, rfl, rfl, rfl, fun _ ha => Memory.read_restrict l.initMem ha, rfl, rfl, rfl⟩

end Sys2Proof.Machine
end

section
/-! PROOFS. The statement about the data memory (20_memory.md): what a load reads after a store (R70). -/

namespace Sys2Proof.Machine

/-- `MemRead(b)` in a state whose data memory is the result of `MemWrite(a, v)` in `s` (R62, R63). -/
theorem memRead_of_dmem_eq_memWrite {s t : State} {a v : Word} (hm : Memory.wf s.dmem = true)
    (ht : t.dmem = memWrite s a v) (b : Word) : memRead t b = if b = a then v else memRead s b := by
  simp only [memRead, ht, memWrite, Memory.read_write hm, BitVec.toNat_inj]

/-- An LW whose destination is not register 0 leaves the word it addressed there (R62, R181). -/
theorem readReg_of_exec_lw {rt rs : RegIdx} {off : Word} {s t : State} (hrt : rt ≠ 0#5)
    (h : exec (.lw rt off rs) s = .next t) (ha : (readReg s.x rs + off).toNat < s.launch.memWords) :
    readReg t.x rt = memRead s (readReg s.x rs + off) := by
  rw [exec_lw (inExtent_iff.mpr ha)] at h
  cases h
  rw [readReg_writePort, if_pos ⟨rfl, hrt⟩]

/-- Settles O15: the SW leaves the registers and the extent alone, so the LW computes its index from the same
registers and reads after one write. -/
theorem loadAfterStoreSeesTheStore : Obligations.LoadAfterStoreSeesTheStore := by
  intro rt rs rt' rs' off off' s t u hm hsw hlw hrt ht hu
  rw [exec_sw (inExtent_iff.mpr hsw)] at ht
  cases ht
  rw [readReg_of_exec_lw hrt hu hlw]
  exact memRead_of_dmem_eq_memWrite hm rfl _

end Sys2Proof.Machine
end

section
/-! PROOFS. The statements about the encoding (30_encoding.md): the decoder and the encoder (R94), the opcode map
(R83), the illegal words (R87), source registers (R92), control signals (R88) and the destination (R89). -/

namespace Sys2Proof

open Machine

/-! ## What a legal word is (R81 to R86) -/

/-- The fields of `w` are those of the instruction `i`: the fixed ones (opcode, and shamt and funct in the R format)
and the operands (R81 to R85). -/
def HasFields (w : Word) : Instr → Prop
  | .add rd rs rt => (opcodeField w = 0x00#6 ∧ shamtField w = 0#5 ∧ functField w = 0x20#6) ∧
      rs = rsField w ∧ rt = rtField w ∧ rd = rdField w
  | .sub rd rs rt => (opcodeField w = 0x00#6 ∧ shamtField w = 0#5 ∧ functField w = 0x22#6) ∧
      rs = rsField w ∧ rt = rtField w ∧ rd = rdField w
  | .beq rs rt off => opcodeField w = 0x04#6 ∧ rs = rsField w ∧ rt = rtField w ∧ off = offField w
  | .lw rt off rs => opcodeField w = 0x23#6 ∧ rs = rsField w ∧ rt = rtField w ∧ off = offField w
  | .sw rt off rs => opcodeField w = 0x2B#6 ∧ rs = rsField w ∧ rt = rtField w ∧ off = offField w

theorem hasFields_of_decode {w : Word} {i : Instr} (h : decode w = .legal i) : HasFields w i := by
  unfold decode at h
  split_ifs at h with hop hadd hsh hsub hsh hbeq hlw hsw <;> cases h
  · exact ⟨⟨hop, hsh, hadd⟩, rfl, rfl, rfl⟩
  · exact ⟨⟨hop, hsh, hsub⟩, rfl, rfl, rfl⟩
  · exact ⟨hbeq, rfl, rfl, rfl⟩
  · exact ⟨hlw, rfl, rfl, rfl⟩
  · exact ⟨hsw, rfl, rfl, rfl⟩

theorem decode_of_hasFields {w : Word} {i : Instr} (h : HasFields w i) : decode w = .legal i := by
  cases i with
  | add rd rs rt =>
    obtain ⟨⟨hop, hsh, hfn⟩, rfl, rfl, rfl⟩ := h
    simp [decode, hop, hsh, hfn]
  | sub rd rs rt =>
    obtain ⟨⟨hop, hsh, hfn⟩, rfl, rfl, rfl⟩ := h
    simp [decode, hop, hsh, hfn]
  | beq rs rt off =>
    obtain ⟨hop, rfl, rfl, rfl⟩ := h
    simp [decode, hop]
  | lw rt off rs =>
    obtain ⟨hop, rfl, rfl, rfl⟩ := h
    simp [decode, hop]
  | sw rt off rs =>
    obtain ⟨hop, rfl, rfl, rfl⟩ := h
    simp [decode, hop]

/-- `decode` by the fields of the word. -/
theorem decode_eq_legal_iff {w : Word} {i : Instr} : decode w = .legal i ↔ HasFields w i :=
  ⟨hasFields_of_decode, decode_of_hasFields⟩

/-! ## Encoder and decoder (R94) -/

/-- The fields of an R-format word, as `HasFields` lists them (R81). -/
theorem rWord_hasFields {op : BitVec 6} {rs rt rd shamt : BitVec 5} {funct : BitVec 6} {w : Word}
    (h : w = op ++ rs ++ rt ++ rd ++ shamt ++ funct) :
    (opcodeField w = op ∧ shamtField w = shamt ∧ functField w = funct) ∧
      rs = rsField w ∧ rt = rtField w ∧ rd = rdField w := by
  obtain ⟨hop, hrs, hrt, hrd, hsh, hfn⟩ := rWord_fields h
  exact ⟨⟨hop, hsh, hfn⟩, hrs.symm, hrt.symm, hrd.symm⟩

/-- The fields of an I-format word that carries an offset in range, as `HasFields` lists them (R82, R85). -/
theorem iWord_hasFields {op : BitVec 6} {rs rt : BitVec 5} {off w : Word} (hoff : offsetInRange off = true)
    (h : w = op ++ rs ++ rt ++ immOf off) :
    opcodeField w = op ∧ rs = rsField w ∧ rt = rtField w ∧ off = offField w := by
  obtain ⟨hop, hrs, hrt, himm⟩ := iWord_fields h
  exact ⟨hop, hrs.symm, hrt.symm, by rw [offField, himm, sext32_immOf hoff]⟩

/-- An encoding has the fields it was put together from. -/
theorem hasFields_encode {i : Instr} (h : i.wellFormed = true) : HasFields (encode i) i := by
  cases i with
  | add rd rs rt => exact rWord_hasFields rfl
  | sub rd rs rt => exact rWord_hasFields rfl
  | beq rs rt off => exact iWord_hasFields h rfl
  | lw rt off rs => exact iWord_hasFields h rfl
  | sw rt off rs => exact iWord_hasFields h rfl

/-- A well-formed instruction is what its encoding decodes to. -/
theorem decode_encode {i : Instr} (h : i.wellFormed = true) : decode (encode i) = .legal i :=
  decode_of_hasFields (hasFields_encode h)

/-- The instruction of a word has its offset in range (R85). -/
theorem wellFormed_of_hasFields {w : Word} {i : Instr} (h : HasFields w i) : i.wellFormed = true := by
  cases i with
  | add rd rs rt => rfl
  | sub rd rs rt => rfl
  | beq rs rt off =>
    obtain ⟨-, -, -, rfl⟩ := h
    exact offsetInRange_sext32 _
  | lw rt off rs =>
    obtain ⟨-, -, -, rfl⟩ := h
    exact offsetInRange_sext32 _
  | sw rt off rs =>
    obtain ⟨-, -, -, rfl⟩ := h
    exact offsetInRange_sext32 _

/-- The fields of an R-format word put together again, the fixed ones by their values (R81). -/
theorem rWord_of_fields {op : BitVec 6} {shamt : BitVec 5} {funct : BitVec 6} {w : Word}
    (h : opcodeField w = op ∧ shamtField w = shamt ∧ functField w = funct) :
    (show Word from op ++ rsField w ++ rtField w ++ rdField w ++ shamt ++ funct) = w := by
  obtain ⟨rfl, rfl, rfl⟩ := h
  exact rWord_join w

/-- The fields of an I-format word put together again, the opcode by its value (R82). -/
theorem iWord_of_fields {op : BitVec 6} {w : Word} (h : opcodeField w = op) :
    (show Word from op ++ rsField w ++ rtField w ++ immOf (offField w)) = w := by
  subst h
  rw [offField, immOf_sext32]
  exact iWord_join w

/-- The fields of a word determine it. -/
theorem encode_of_hasFields {w : Word} {i : Instr} (h : HasFields w i) : encode i = w := by
  cases i with
  | add rd rs rt =>
    obtain ⟨hfixed, rfl, rfl, rfl⟩ := h
    exact rWord_of_fields hfixed
  | sub rd rs rt =>
    obtain ⟨hfixed, rfl, rfl, rfl⟩ := h
    exact rWord_of_fields hfixed
  | beq rs rt off =>
    obtain ⟨hop, rfl, rfl, rfl⟩ := h
    exact iWord_of_fields hop
  | lw rt off rs =>
    obtain ⟨hop, rfl, rfl, rfl⟩ := h
    exact iWord_of_fields hop
  | sw rt off rs =>
    obtain ⟨hop, rfl, rfl, rfl⟩ := h
    exact iWord_of_fields hop

/-- `off[15:0]` of R94. -/
theorem immOf_eq_extractLsb' (off : Word) : immOf off = off.extractLsb' 0 16 :=
  BitVec.setWidth_eq_extractLsb' (by decide)

/-- Settles O1: both round trips go through the fields of the word (`HasFields`), which determine the instruction
and the word. -/
theorem encoderIsTheInverseOfDecode : Obligations.EncoderIsTheInverseOfDecode := by
  refine ⟨fun i => decode_encode, fun w i h => ?_, fun rd rs rt => ⟨rfl, rfl⟩, fun rs rt off => ?_⟩
  · have hw := hasFields_of_decode h
    exact ⟨wellFormed_of_hasFields hw, encode_of_hasFields hw⟩
  · rw [← immOf_eq_extractLsb']
    exact ⟨rfl, rfl, rfl⟩

/-! ## The opcode map (R83) -/

/-- Rows that give different values to the bits both of them fix share no word. -/
theorem not_inRow_of_conflict {w : Word} {a b : Word × Word} (h : a.1 &&& b.2 ≠ b.1 &&& a.2)
    (ha : inRow w a = true) : ¬ inRow w b = true := by
  intro hb
  have ha : w &&& a.2 = a.1 := eq_of_beq ha
  have hb : w &&& b.2 = b.1 := eq_of_beq hb
  exact h (by rw [← ha, ← hb, BitVec.and_assoc, BitVec.and_assoc, BitVec.and_comm a.2])

/-- Every two rows of the map conflict. -/
theorem opcodeRows_conflict : opcodeRows.Pairwise fun a b => a.1 &&& b.2 ≠ b.1 &&& a.2 := by
  decide

/-- No word lies in two rows. -/
theorem length_filter_inRow_le (w : Word) : (opcodeRows.filter (inRow w)).length ≤ 1 := by
  have hp := opcodeRows_conflict.filter (inRow w)
  match hl : opcodeRows.filter (inRow w) with
  | [] => simp
  | [a] => simp
  | a :: b :: rest =>
    have hmem : ∀ c ∈ opcodeRows.filter (inRow w), inRow w c = true := fun c hc => (List.mem_filter.mp hc).2
    rw [hl] at hp hmem
    have hab := (List.pairwise_cons.mp hp).1 b (by simp)
    exact absurd (hmem b (by simp)) (not_inRow_of_conflict hab (hmem a (by simp)))

/-- A legal word lies in a row. -/
theorem exists_inRow_of_hasFields {w : Word} {i : Instr} (h : HasFields w i) :
    ∃ row ∈ opcodeRows, inRow w row = true := by
  cases i with
  | add rd rs rt => exact ⟨(0x00000020#32, 0xFC0007FF#32), by decide, beq_iff_eq.mpr ((addRow_iff w).mpr h.1)⟩
  | sub rd rs rt => exact ⟨(0x00000022#32, 0xFC0007FF#32), by decide, beq_iff_eq.mpr ((subRow_iff w).mpr h.1)⟩
  | beq rs rt off => exact ⟨(0x10000000#32, 0xFC000000#32), by decide, beq_iff_eq.mpr ((beqRow_iff w).mpr h.1)⟩
  | lw rt off rs => exact ⟨(0x8C000000#32, 0xFC000000#32), by decide, beq_iff_eq.mpr ((lwRow_iff w).mpr h.1)⟩
  | sw rt off rs => exact ⟨(0xAC000000#32, 0xFC000000#32), by decide, beq_iff_eq.mpr ((swRow_iff w).mpr h.1)⟩

/-- Settles O2: a row of the map fixes the same bits as the opcode, shamt and funct fields that `decode` tests, and
every two rows conflict in a bit. -/
theorem opcodeMapDecidesEveryWord : Obligations.OpcodeMapDecidesEveryWord := by
  refine ⟨fun w rd rs rt => ?_, fun w rd rs rt => ?_, fun w rs rt off => ?_, fun w rs rt off => ?_,
    fun w rs rt off => ?_, length_filter_inRow_le, fun w h => ?_⟩
  · exact decode_eq_legal_iff.trans (and_congr_left' (addRow_iff w).symm)
  · exact decode_eq_legal_iff.trans (and_congr_left' (subRow_iff w).symm)
  · exact decode_eq_legal_iff.trans (and_congr_left' (beqRow_iff w).symm)
  · exact decode_eq_legal_iff.trans (and_congr_left' (lwRow_iff w).symm)
  · exact decode_eq_legal_iff.trans (and_congr_left' (swRow_iff w).symm)
  · cases hd : decode w with
    | illegal why => exact ⟨why, rfl⟩
    | legal i =>
      obtain ⟨row, hrow, hin⟩ := exists_inRow_of_hasFields (hasFields_of_decode hd)
      simp [h row hrow] at hin

/-! ## Illegal words (R87) -/

theorem decode_unknownOpcode {w : Word} (h0 : opcodeField w ≠ 0x00#6) (hbeq : opcodeField w ≠ 0x04#6)
    (hlw : opcodeField w ≠ 0x23#6) (hsw : opcodeField w ≠ 0x2B#6) :
    decode w = .illegal (.unknownOpcode (opcodeField w)) := by
  simp [decode, h0, hbeq, hlw, hsw]

theorem decode_unknownFunct {w : Word} (h0 : opcodeField w = 0x00#6) (hadd : functField w ≠ 0x20#6)
    (hsub : functField w ≠ 0x22#6) : decode w = .illegal (.unknownFunct (functField w)) := by
  simp [decode, h0, hadd, hsub]

theorem decode_shamtNotZero {w : Word} (h0 : opcodeField w = 0x00#6)
    (hf : functField w = 0x20#6 ∨ functField w = 0x22#6) (hs : shamtField w ≠ 0#5) :
    decode w = .illegal (.shamtNotZero (shamtField w)) := by
  cases hf with
  | inl hadd => simp [decode, h0, hadd, hs]
  | inr hsub => simp [decode, h0, hsub, hs]

/-- Settles O3: each illegal answer of `decode` comes from one of the three kinds, and each kind gives its answer. -/
theorem illegalWordsAreExactlyThreeKinds : Obligations.IllegalWordsAreExactlyThreeKinds := by
  intro w
  constructor
  · rintro ⟨why, h⟩
    unfold decode at h
    split_ifs at h with h0 hadd hs hsub hs hbeq hlw hsw
    · exact .inr (.inr ⟨h0, .inl hadd, hs⟩)
    · exact .inr (.inr ⟨h0, .inr hsub, hs⟩)
    · exact .inr (.inl ⟨h0, hadd, hsub⟩)
    · exact .inl ⟨h0, hbeq, hlw, hsw⟩
  · rintro (⟨h0, hbeq, hlw, hsw⟩ | ⟨h0, hadd, hsub⟩ | ⟨h0, hf, hs⟩)
    · exact ⟨_, decode_unknownOpcode h0 hbeq hlw hsw⟩
    · exact ⟨_, decode_unknownFunct h0 hadd hsub⟩
    · exact ⟨_, decode_shamtNotZero h0 hf hs⟩

/-! ## Source registers (R92) -/

theorem srcs_of_legal {w : Word} {i : Instr} (h : decode w = .legal i) : srcs w = srcsOf i := by
  simp [srcs, h]

theorem srcs_of_illegal {w : Word} {why : IllegalReason} (h : decode w = .illegal why) : srcs w = [] := by
  simp [srcs, h]

/-- Settles O5: the sources of a legal word are those of its instruction, one list per variant. -/
theorem sourceRegistersOfAWord : Obligations.SourceRegistersOfAWord := by
  refine fun w r => ⟨fun rd rs rt h => ?_, fun rd rs rt h => ?_, fun rs rt off h => ?_, fun rt off rs h => ?_,
    fun rt off rs h => ?_, fun why h => ?_⟩
  · rw [srcs_of_legal h, srcsOf, List.mem_pair]
  · rw [srcs_of_legal h, srcsOf, List.mem_pair]
  · rw [srcs_of_legal h, srcsOf, List.mem_pair]
  · rw [srcs_of_legal h, srcsOf, List.mem_pair]
  · rw [srcs_of_legal h, srcsOf, List.mem_singleton]
  · rw [srcs_of_illegal h]
    exact List.not_mem_nil

/-! ## Control signals and the destination (R88, R89) -/

/-- Settles O6: `ctrlOf` is the table, row by row. -/
theorem controlSignalTable : Obligations.ControlSignalTable :=
  fun _ _ _ _ => ⟨rfl, rfl, rfl, rfl, rfl⟩

/-- Settles O7: RegDst is read for ADD, SUB and LW alone, whose operands are the fields of the word. -/
theorem destinationFollowsRegDst : Obligations.DestinationFollowsRegDst := by
  intro w i h
  have hw := hasFields_of_decode h
  cases i with
  | add rd rs rt =>
    obtain ⟨-, -, -, rfl⟩ := hw
    rfl
  | sub rd rs rt =>
    obtain ⟨-, -, -, rfl⟩ := hw
    rfl
  | lw rt off rs =>
    obtain ⟨-, -, rfl, -⟩ := hw
    rfl
  | sw rt off rs => rfl
  | beq rs rt off => rfl

end Sys2Proof
end

section
/-! PROOFS. The statements about assembly text (30_encoding.md): the parser accepts only well-formed instructions
(R97), and it reads the canonical text of each back (R96, R98). -/

namespace Sys2Proof.Machine.Asm

/-! ## What the parser accepts is well formed (R97) -/

theorem offsetInRange_iff {off : Word} : offsetInRange off = true ↔ -32768 ≤ off.toInt ∧ off.toInt ≤ 32767 := by
  simp [offsetInRange]

theorem offsetInRange_of_offsetOf {v : Int} {off : Word} (h : offsetOf v = some off) :
    offsetInRange off = true := by
  rw [offsetOf, Option.ite_none_right_eq_some] at h
  obtain ⟨hv, hoff⟩ := h
  cases hoff
  rwa [offsetInRange_iff, BitVec.toInt_ofInt_eq_self (by decide) (by omega) (by omega)]

theorem offsetInRange_of_offset {cs rest : List Char} {off : Word} (h : offset cs = some (off, rest)) :
    offsetInRange off = true := by
  unfold offset at h
  split at h
  all_goals
    simp only [Option.bind_eq_bind, Option.bind_eq_some_iff] at h
    obtain ⟨_, _, _, ho, hr⟩ := h
    cases hr
    exact offsetInRange_of_offsetOf ho

theorem offsetInRange_of_twoRegsOffset {cs : List Char} {a b : RegIdx} {off : Word}
    (h : twoRegsOffset cs = some (a, b, off)) : offsetInRange off = true := by
  simp only [twoRegsOffset, Option.bind_eq_bind, Option.bind_eq_some_iff] at h
  obtain ⟨_, _, _, _, _, _, _, _, _, ho, _, _, hr⟩ := h
  cases hr
  exact offsetInRange_of_offset ho

theorem offsetInRange_of_regOffsetBase {cs : List Char} {a b : RegIdx} {off : Word}
    (h : regOffsetBase cs = some (a, off, b)) : offsetInRange off = true := by
  simp only [regOffsetBase, Option.bind_eq_bind, Option.bind_eq_some_iff] at h
  obtain ⟨_, _, _, _, _, ho, _, _, _, _, _, _, _, _, hr⟩ := h
  cases hr
  exact offsetInRange_of_offset ho

/-- The parser accepts well-formed instructions only. -/
theorem wellFormed_of_parseLine {cs : List Char} {i : Instr} (h : parseLine cs = some i) :
    i.wellFormed = true := by
  unfold parseLine at h
  split at h
  all_goals simp only [Option.bind_eq_bind, Option.bind_eq_some_iff, reduceCtorEq] at h
  · obtain ⟨_, _, _, _, hi⟩ := h
    cases hi
    rfl
  · obtain ⟨_, _, _, _, hi⟩ := h
    cases hi
    rfl
  · obtain ⟨_, _, _, hr, hi⟩ := h
    cases hi
    exact offsetInRange_of_twoRegsOffset hr
  · obtain ⟨_, _, _, hr, hi⟩ := h
    cases hi
    exact offsetInRange_of_regOffsetBase hr
  · obtain ⟨_, _, _, hr, hi⟩ := h
    cases hi
    exact offsetInRange_of_regOffsetBase hr

theorem assembleLine_of_parseLine {cs : List Char} {i : Instr} (h : parseLine cs = some i) :
    assembleLine cs = encode i := by
  simp [assembleLine, h]

theorem assembleLine_of_malformed {cs : List Char} (h : parseLine cs = none) :
    assembleLine cs = Config.illegalWord := by
  simp [assembleLine, h]

/-- Settles O59: the illegal word has the unknown opcode 0x3F, and what the parser accepts is well formed, so that
decoding its encoding gives it back (O1). -/
theorem malformedLinesAssembleToTheIllegalWord : Obligations.MalformedLinesAssembleToTheIllegalWord := by
  refine fun cs => ⟨fun h => ?_, fun i h => ?_⟩
  · rw [assembleLine_of_malformed h]
    exact ⟨rfl, .unknownOpcode 0x3F#6, by decide⟩
  · have hi := wellFormed_of_parseLine h
    rw [assembleLine_of_parseLine h]
    exact ⟨hi, decode_encode hi⟩

/-! ## Where a run of blanks or digits ends (R96) -/

/-- A text that begins, if at all, with a character without the property `p`: it ends a run of such characters. -/
def Ends (p : Char → Bool) (cs : List Char) : Prop := ∀ c ∈ cs.head?, p c = false

theorem dropWhile_of_ends {p : Char → Bool} {cs : List Char} (h : Ends p cs) : cs.dropWhile p = cs := by
  cases cs with
  | nil => rfl
  | cons c cs => simp [h c rfl]

theorem takeWhile_of_ends {p : Char → Bool} {cs : List Char} (h : Ends p cs) : cs.takeWhile p = [] := by
  cases cs with
  | nil => rfl
  | cons c cs => simp [h c rfl]

theorem ends_comma {p : Char → Bool} (h : p ',' = false) (rest : List Char) : Ends p (comma ++ rest) := by
  simp [Ends, comma, h]

theorem ends_showReg {p : Char → Bool} (h : p '$' = false) (r : RegIdx) (rest : List Char) :
    Ends p (showReg r ++ rest) := by
  simp [Ends, showReg, h]

/-! ## Decimal digits read back (R96) -/

/-- The character of a decimal digit. -/
theorem digit_toNat {d : Nat} (h : d < 10) : (Char.ofNat (48 + d)).toNat = 48 + d := by
  rw [Char.toNat_ofNat, if_pos]
  exact .inl (by omega)

theorem isDigit_digit {d : Nat} (h : d < 10) : isDigit (Char.ofNat (48 + d)) = true := by
  simp only [isDigit, digit_toNat h, Bool.and_eq_true, decide_eq_true_eq]
  omega

theorem isDigit_of_mem_digitsRev {fuel n : Nat} {c : Char} (h : c ∈ digitsRev fuel n) : isDigit c = true := by
  induction fuel generalizing n with
  | zero => simp [digitsRev] at h
  | succ fuel ih =>
    have hd := isDigit_digit (Nat.mod_lt n (by decide : 10 > 0))
    rw [digitsRev, List.mem_cons] at h
    obtain rfl | h := h
    · exact hd
    · split at h
      · simp at h
      · exact ih h

theorem natOf_concat (cs : List Char) (c : Char) : natOf (cs ++ [c]) = 10 * natOf cs + (c.toNat - 48) := by
  simp [natOf]

/-- Reading the digits back gives the number, when there is fuel for all of them. -/
theorem natOf_reverse_digitsRev {fuel n : Nat} (h : n < 10 ^ fuel) : natOf (digitsRev fuel n).reverse = n := by
  induction fuel generalizing n with
  | zero => exact (Nat.lt_one_iff.mp h).symm
  | succ fuel ih =>
    rw [digitsRev, List.reverse_cons, natOf_concat, digit_toNat (Nat.mod_lt n (by decide)), Nat.add_sub_cancel_left]
    split_ifs with hlast
    · rw [Nat.mod_eq_of_lt hlast]
      exact Nat.zero_add n
    · rw [ih (Nat.div_lt_of_lt_mul (Nat.pow_succ' ▸ h)), Nat.div_add_mod]

theorem natOf_showNat {n : Nat} (h : n < 10 ^ 11) : natOf (showNat n) = n :=
  natOf_reverse_digitsRev h

theorem isDigit_of_mem_showNat {n : Nat} {c : Char} (h : c ∈ showNat n) : isDigit c = true :=
  isDigit_of_mem_digitsRev (List.mem_reverse.mp h)

/-- A printed number begins with a digit. -/
theorem exists_showNat_eq_cons (n : Nat) : ∃ c cs, showNat n = c :: cs ∧ isDigit c = true := by
  cases hs : showNat n with
  | nil => simp [showNat, digitsRev] at hs
  | cons c cs => exact ⟨c, cs, rfl, isDigit_of_mem_showNat (hs ▸ List.mem_cons_self)⟩

/-- A printed number is read as that number, up to the next character that is no digit. -/
theorem number_showNat {n : Nat} {rest : List Char} (hn : n < 10 ^ 11) (hr : Ends isDigit rest) :
    number (showNat n ++ rest) = some (n, rest) := by
  have hd : ∀ c ∈ showNat n, isDigit c = true := fun c => isDigit_of_mem_showNat
  rw [number, List.takeWhile_append_of_pos hd, List.dropWhile_append_of_pos hd, takeWhile_of_ends hr,
    dropWhile_of_ends hr, List.append_nil]
  obtain ⟨c, cs, hs, -⟩ := exists_showNat_eq_cons n
  have hval := natOf_showNat hn
  rw [hs] at hval ⊢
  simp [hval]

/-! ## The parts of a line read back (R96, R98) -/

theorem reg_showReg {r : RegIdx} {rest : List Char} (hr : Ends isDigit rest) :
    reg (showReg r ++ rest) = some (r, rest) := by
  have hlt : r.toNat < 32 := r.isLt
  have hnum := number_showNat (n := r.toNat) (by omega) hr
  have hle : r.toNat ≤ 31 := by omega
  simp [reg, showReg, expect, hnum, hle]

theorem reg_showReg_end (r : RegIdx) : reg (showReg r) = some (r, []) := by
  simpa using reg_showReg (r := r) (rest := []) (by simp [Ends])

theorem isBlank_of_isDigit {c : Char} (h : isDigit c = true) : isBlank c = false := by
  have hspace : c ≠ ' ' := by
    rintro rfl
    cases h
  have htab : c ≠ '\t' := by
    rintro rfl
    cases h
  simp [isBlank, hspace, htab]

theorem ends_isBlank_showNat (n : Nat) (rest : List Char) : Ends isBlank (showNat n ++ rest) := by
  obtain ⟨c, cs, hs, hd⟩ := exists_showNat_eq_cons n
  simpa [hs, Ends] using isBlank_of_isDigit hd

theorem ends_isBlank_showOffset (off : Word) (rest : List Char) : Ends isBlank (showOffset off ++ rest) := by
  unfold showOffset
  split
  · simp [Ends, isBlank]
  · exact ends_isBlank_showNat _ rest

theorem sep_comma {rest : List Char} (h : Ends isBlank rest) : sep (comma ++ rest) = some rest := by
  have hb : (' ' :: rest).dropWhile isBlank = rest := by simpa [isBlank] using dropWhile_of_ends h
  simp [sep, comma, expect, isBlank, hb]

/-- A value in range is an offset (R97). -/
theorem offsetOf_toInt {off : Word} (h : offsetInRange off = true) : offsetOf off.toInt = some off := by
  rw [offsetOf, if_pos (offsetInRange_iff.mp h), BitVec.ofInt_toInt]

/-- A text that begins with a digit has no sign. -/
theorem offset_of_digit {c : Char} (h : isDigit c = true) (cs : List Char) :
    offset (c :: cs) = (number (c :: cs)).bind fun nr => (offsetOf nr.1).bind fun o => some (o, nr.2) := by
  unfold offset
  split
  · rename_i hc
    cases hc
    cases h
  · rename_i hc
    cases hc
    cases h
  · rfl

theorem offset_showNat {n : Nat} {rest : List Char} (hn : n < 10 ^ 11) (hr : Ends isDigit rest) :
    offset (showNat n ++ rest) = (offsetOf n).bind fun o => some (o, rest) := by
  have hnum := number_showNat hn hr
  obtain ⟨c, cs, hs, hd⟩ := exists_showNat_eq_cons n
  rw [hs, List.cons_append] at hnum ⊢
  rw [offset_of_digit hd, hnum]
  rfl

theorem offset_minus_showNat {n : Nat} {rest : List Char} (hn : n < 10 ^ 11) (hr : Ends isDigit rest) :
    offset ('-' :: (showNat n ++ rest)) = (offsetOf (-(n : Int))).bind fun o => some (o, rest) := by
  simp [offset, number_showNat hn hr]

/-- A printed offset is read as that offset. -/
theorem offset_showOffset {off : Word} {rest : List Char} (hoff : offsetInRange off = true)
    (hr : Ends isDigit rest) : offset (showOffset off ++ rest) = some (off, rest) := by
  have hrange := offsetInRange_iff.mp hoff
  unfold showOffset
  split
  · rw [List.cons_append, offset_minus_showNat (by omega) hr, Int.ofNat_natAbs_of_nonpos (by omega), neg_neg,
      offsetOf_toInt hoff]
    rfl
  · rw [offset_showNat (by omega) hr, Int.toNat_of_nonneg (by omega), offsetOf_toInt hoff]
    rfl

theorem offset_showOffset_end {off : Word} (hoff : offsetInRange off = true) :
    offset (showOffset off) = some (off, []) := by
  simpa using offset_showOffset (rest := []) hoff (by simp [Ends])

/-! ## Lines read back (R96, R98) -/

theorem reg_showReg_comma (r : RegIdx) (rest : List Char) :
    reg (showReg r ++ (comma ++ rest)) = some (r, comma ++ rest) :=
  reg_showReg (ends_comma rfl rest)

theorem sep_comma_showReg (r : RegIdx) (rest : List Char) :
    sep (comma ++ (showReg r ++ rest)) = some (showReg r ++ rest) :=
  sep_comma (ends_showReg rfl r rest)

theorem sep_comma_showOffset (off : Word) (rest : List Char) :
    sep (comma ++ (showOffset off ++ rest)) = some (showOffset off ++ rest) :=
  sep_comma (ends_isBlank_showOffset off rest)

theorem threeRegs_canonical (a b c : RegIdx) :
    threeRegs (showReg a ++ (comma ++ (showReg b ++ (comma ++ showReg c)))) = some (a, b, c) := by
  have hsep : sep (comma ++ showReg c) = some (showReg c) := by simpa using sep_comma_showReg c []
  simp [threeRegs, reg_showReg_comma, sep_comma_showReg, hsep, reg_showReg_end, atEnd]

theorem twoRegsOffset_canonical (a b : RegIdx) {off : Word} (hoff : offsetInRange off = true) :
    twoRegsOffset (showReg a ++ (comma ++ (showReg b ++ (comma ++ showOffset off)))) = some (a, b, off) := by
  have hsep : sep (comma ++ showOffset off) = some (showOffset off) := by simpa using sep_comma_showOffset off []
  simp [twoRegsOffset, reg_showReg_comma, sep_comma_showReg, hsep, offset_showOffset_end hoff, atEnd]

theorem regOffsetBase_canonical (a b : RegIdx) {off : Word} (hoff : offsetInRange off = true) :
    regOffsetBase (showReg a ++ (comma ++ (showOffset off ++ '(' :: (showReg b ++ [')'])))) =
      some (a, off, b) := by
  have hopen : Ends isDigit ('(' :: (showReg b ++ [')'])) := by simp [Ends, isDigit]
  have hclose : Ends isDigit [')'] := by simp [Ends, isDigit]
  simp [regOffsetBase, reg_showReg_comma, sep_comma_showOffset, offset_showOffset hoff hopen, expect,
    reg_showReg hclose, atEnd]

/-- The blank of the canonical text after the mnemonic. -/
theorem skipBlank1_showReg (r : RegIdx) (rest : List Char) :
    skipBlank1 (' ' :: (showReg r ++ rest)) = some (showReg r ++ rest) := by
  have hr : Ends isBlank (showReg r ++ rest) := ends_showReg rfl r rest
  show some ((showReg r ++ rest).dropWhile isBlank) = _
  rw [dropWhile_of_ends hr]

/-- The parser reads the canonical text back. -/
theorem parseLine_disassemble {i : Instr} (h : i.wellFormed = true) : parseLine (disassemble i) = some i := by
  cases i with
  | add rd rs rt => simp [disassemble, parseLine, skipBlank1_showReg, threeRegs_canonical]
  | sub rd rs rt => simp [disassemble, parseLine, skipBlank1_showReg, threeRegs_canonical]
  | beq rs rt off => simp [disassemble, parseLine, skipBlank1_showReg, twoRegsOffset_canonical rs rt h]
  | lw rt off rs => simp [disassemble, parseLine, skipBlank1_showReg, regOffsetBase_canonical rt rs h]
  | sw rt off rs => simp [disassemble, parseLine, skipBlank1_showReg, regOffsetBase_canonical rt rs h]

/-- Settles O58: each part of the canonical text is read back and ends where the next one begins. -/
theorem disassemblyAssemblesBack : Obligations.DisassemblyAssemblesBack := by
  intro i h
  have hp := parseLine_disassemble h
  exact ⟨hp, assembleLine_of_parseLine hp⟩

end Sys2Proof.Machine.Asm
end

section
/-! PROOFS. One cycle from a state of the invariant (40_pipeline.md R110 to R114): which stage can raise what, and
the step that then follows.  The statements about the pipeline below are read off these. -/

namespace Sys2Proof.Machine

/-! ## The hazard comparator (R130) -/

/-- The load-use condition between the instruction in ID/EX and the word in IF/ID (R130). -/
def readsLoad (i : Instr) (w : Word) : Bool :=
  match i with
  | .lw rt _ _ => decide (rt ∈ srcs w)
  | _ => false

theorem stallSignal_idex_empty {s : State} (h : s.idex = .empty) : stallSignal s = .ok false := by
  simp only [stallSignal, h]

theorem stallSignal_ifid_empty {s : State} (h : s.ifid = .empty) : stallSignal s = .ok false := by
  cases hd : s.idex <;> simp only [stallSignal, hd, h]

theorem stallSignal_full {s : State} {d : Decoded} {f : Fetched} (hd : s.idex = .full d)
    (hf : s.ifid = .full f) (hc : d.ctrl = ctrlOf d.instr) :
    stallSignal s = .ok (readsLoad d.instr f.word) := by
  obtain ⟨i, c, pc⟩ := d
  obtain rfl : c = ctrlOf i := hc
  cases i <;> simp only [stallSignal, hd, hf] <;> rfl

/-- With the control signals of R88 in ID/EX, the comparator answers a bit. -/
theorem stallSignal_total {s : State} (h : ∀ d, s.idex = .full d → d.ctrl = ctrlOf d.instr) :
    ∃ b, stallSignal s = .ok b := by
  cases hd : s.idex with
  | empty => exact ⟨_, stallSignal_idex_empty hd⟩
  | full d =>
    cases hf : s.ifid with
    | empty => exact ⟨_, stallSignal_ifid_empty hf⟩
    | full f => exact ⟨_, stallSignal_full hd hf (h d hd)⟩

/-! ## The stages under the invariant -/

theorem inv_ctrl {s : State} (hi : s.inv = true) {d : Decoded} (hd : s.idex = .full d) :
    d.ctrl = ctrlOf d.instr := by
  obtain ⟨-, -, -, hid, -⟩ := inv_iff.mp hi
  exact (idexOk_full hid hd).2.2.1

/-- Where MEM raises nothing, neither EX nor the comparator breaches (R206). -/
theorem stages_answer {s : State} (hi : s.inv = true) (hc : memClean s = true) :
    ∃ dmem memwb exmem b, memOut s = .ok (dmem, memwb) ∧ exOut s = .ok exmem ∧ stallSignal s = .ok b := by
  obtain ⟨⟨dmem, memwb⟩, hm⟩ := memOut_clean.mp hc
  obtain ⟨b, hs⟩ := stallSignal_total fun d => inv_ctrl hi (d := d)
  cases hd : s.idex with
  | empty => exact ⟨dmem, memwb, .empty, b, hm, by simp only [exOut, hd], hs⟩
  | full d => exact ⟨dmem, memwb, _, b, hm, exOut_ok hi hm hd, hs⟩

/-- An older AddressError that has not reached MEM's output is the only thing MEM can raise. -/
theorem memClean_of_archView_running {s : State} (h : s.archView.status = .running) : memClean s = true := by
  rw [memOut_clean]
  cases hm : memOut s with
  | ok p => exact ⟨p, rfl⟩
  | error err => simp [archView_of_memOut_error hm] at h

/-- Where ID decodes no illegal word, ID raises nothing. -/
theorem idOut_of_idClean {s : State} {exmem : Latch Executed} {b : Bool} (hx : exOut s = .ok exmem)
    (hs : stallSignal s = .ok b) (hc : idClean s = true) :
    ∃ idex, idOut s (redirectOf exmem) b = .ok idex := by
  obtain ⟨hk, -⟩ | ⟨hred, hb, f, hf, ⟨why, hdec, -⟩ | ⟨i, -, hk⟩⟩ := idOut_cases s (redirectOf exmem) b
  · exact ⟨_, hk⟩
  · have hn : decodesNext s = .full f := (decodesNext_full hx hs).mpr ⟨hred, hb, hf⟩
    simp [idClean, hn, decode?, hdec] at hc
  · exact ⟨_, hk⟩

/-- With no redirect and no stall, ID puts the decoded instruction into ID/EX. -/
theorem idOut_legal {s : State} {f : Fetched} {i : Instr} (hf : s.ifid = .full f)
    (hdec : decode f.word = .legal i) : idOut s none false = .ok (.full ⟨i, ctrlOf i, f.pc⟩) := by
  simp [idOut, hf, hdec]

/-- A cycle that MEM aborts (R203): nothing but WB has written. -/
theorem step_memError {s : State} (hc : s.runsCycle = true) {err : FatalError} (hm : memOut s = .error err) :
    step s = .next (abort err (s.cycle + 1#64) s (wbStage s)) := by
  rw [step_runs hc, runStages_eq, hm]

/-- A cycle that ID aborts (R203): WB and MEM have written. -/
theorem step_idError {s : State} (hc : s.runsCycle = true) {dmem : Memory} {memwb : Latch MemDone}
    {exmem : Latch Executed} {b : Bool} {err : FatalError} (hm : memOut s = .ok (dmem, memwb))
    (hx : exOut s = .ok exmem) (hs : stallSignal s = .ok b) (hid : idOut s (redirectOf exmem) b = .error err) :
    step s = .next (abort err (s.cycle + 1#64) s { wbStage s with dmem := dmem }) := by
  rw [step_runs hc, runStages_eq, hm]
  simp only [hx, hs, hid]

theorem runsCycle_rst {s : State} (h : s.runsCycle = true) : s.rst = false := by
  simp only [State.runsCycle, Bool.and_eq_true, Bool.not_eq_true'] at h
  exact h.1.1

end Sys2Proof.Machine
end

section
/-! PROOFS. The pipeline against one instruction at a time (40_pipeline.md R140; 60_exceptions.md R205): each cycle
keeps what the pipeline stands for or takes it one step of `Seq` further, so that the run ends as `Seq` does. -/

namespace Sys2Proof.Machine

/-! ## One cycle -/

/-- Settles O50: no AddressError is on its way, so MEM, EX and the comparator answer, and ID puts `i` into ID/EX. -/
theorem stepRunsTheDecodedInstruction : Obligations.StepRunsTheDecodedInstruction := by
  intro s f i hi hc hav hdn hdec
  have hr := runs_running hc
  obtain ⟨dmem, memwb, exmem, b, hm, hx, hs⟩ := stages_answer hi (memClean_of_archView_running hav)
  obtain ⟨hred, rfl, hf⟩ := (decodesNext_full hx hs).mp hdn
  have hid : idOut s (redirectOf exmem) false = .ok (.full ⟨i, ctrlOf i, f.pc⟩) := by
    rw [hred]; exact idOut_legal hf hdec
  obtain ⟨-, -, hdecodes⟩ := archView_cycle hi hr hm hx hs hid
  obtain ⟨hpc, hexec⟩ := hdecodes _ rfl hav
  exact ⟨hpc, _, step_ok hc hm hx hs hid, hr, hexec⟩

/-- Settles O51, by what ID puts into ID/EX: a bubble keeps the view, and so does an instruction behind an
AddressError. -/
theorem otherCyclesKeepTheView : Obligations.OtherCyclesKeepTheView := by
  intro s t hi hc ht htr hview
  obtain ⟨dmem, memwb, exmem, stall, idex, hm, hx, hs, hid, rfl⟩ := step_ok_cases hc ht htr
  obtain ⟨hbubble, hbehind, -⟩ := archView_cycle hi (runs_running hc) hm hx hs hid
  cases idex with
  | empty => exact hbubble rfl
  | full d =>
    refine hbehind d rfl (hview.resolve_left fun hdn => ?_)
    obtain ⟨hk, -⟩ | ⟨hred, hst, f, hf, -⟩ := idOut_cases s (redirectOf exmem) stall
    · rw [hk] at hid; cases hid
    · rw [(decodesNext_full hx hs).mpr ⟨hred, hst, hf⟩] at hdn; cases hdn

/-! ## The last cycle -/

/-- Where EX drives no redirect, what the pipeline stands for is about to run the instruction at the front of the
pipeline, or has stopped in an AddressError of the instruction in ID/EX. -/
theorem archView_front {s : State} (hi : s.inv = true) (hr : s.status = .running) {dmem : Memory}
    {memwb : Latch MemDone} {exmem : Latch Executed} (hm : memOut s = .ok (dmem, memwb))
    (hx : exOut s = .ok exmem) (hred : redirectOf exmem = none) :
    (s.archView.status = .running ∧ s.archView.pc = s.frontIndex) ∨
    ∃ a d, s.idex = .full d ∧ s.archView.status = .error (.addressError a d.pc) := by
  rw [archView_eq hm hr]
  cases hd : s.idex with
  | empty => exact .inl ⟨hr, rfl⟩
  | full d =>
    obtain ⟨-, -, -, hid, -⟩ := inv_iff.mp hi
    obtain ⟨-, -, -, hfront⟩ := idexOk_full hid hd
    cases (exOut_ok hi hm hd).symm.trans hx
    dsimp only
    obtain ⟨_, _, -, hfin⟩ | ⟨err, herr, hfin⟩ := finish_cases
      ⟨exOf d.instr d.pc (readReg (olderX s memwb)), ctrlOf d.instr, d.pc⟩
      (nextIndex (exOf d.instr d.pc (readReg (olderX s memwb))) d.pc) (base s memwb dmem d.pc)
    · refine .inl ⟨by rw [hfin]; exact hr, ?_⟩
      rw [hfin, hfront, nextIndex_redirect _ d.ctrl, hred]
      rfl
    · obtain ⟨a, rfl, -⟩ := memAccess_error herr
      exact .inr ⟨a, d, rfl, by rw [hfin]; rfl⟩

/-- `e'`, of an illegal word, overtakes the AddressError `e` of the instruction just before it (R205 (d)). -/
def Overtakes (l : Launch) (e' e : FatalError) : Prop :=
  ∃ a j w why, e = .addressError a j ∧ e' = .formatError w (j + 1#32) ∧
    w = (State.resetOf l).progWord (j + 1#32) ∧ decode w = .illegal why

/-- The pipeline in `u` has ended as `Seq` in `v` (R140): in DONE with the same registers and memory, or in ERROR
with the same error but for one that overtakes it. -/
def EndsAlike (u v : State) : Prop :=
  (u.status = .done ∧ v.status = .done ∧ u.x = v.x ∧ u.dmem = v.dmem) ∨
  ∃ e e', v.status = .error e ∧ u.status = .error e' ∧ (e' = e ∨ Overtakes u.launch e' e)

theorem EndsAlike.seq_stopped {u v : State} (h : EndsAlike u v) : v.status ≠ .running := by
  obtain ⟨-, hv, -⟩ | ⟨e, e', hv, -⟩ := h <;> simp [hv]

theorem EndsAlike.of_done {u v : State} (h : EndsAlike u v) (hv : v.status = .done) :
    u.status = .done ∧ u.x = v.x ∧ u.dmem = v.dmem := by
  obtain ⟨hu, -, hx, hd⟩ | ⟨e, e', he, -⟩ := h
  · exact ⟨hu, hx, hd⟩
  · rw [hv] at he; cases he

theorem EndsAlike.of_error {u v : State} {e : FatalError} (h : EndsAlike u v) (hv : v.status = .error e) :
    ∃ e', u.status = .error e' ∧ (e' = e ∨ Overtakes u.launch e' e) := by
  obtain ⟨-, hd, -⟩ | ⟨e₁, e', he, hu, hor⟩ := h
  · rw [hd] at hv; cases hv
  · rw [he] at hv; cases hv
    exact ⟨e', hu, hor⟩

/-- The completion cycle: nothing is in flight and `Seq` is at the end of the program (R112). -/
theorem endsAlike_completes {s : State} (hr : s.status = .running) (hc : completes s = true) :
    ∃ v, seqStep s.archView = .next v ∧ EndsAlike { s with status := .done } v := by
  simp only [completes, Bool.and_eq_true, beq_iff_eq, Bool.not_eq_true'] at hc
  obtain ⟨⟨⟨⟨hif, hid⟩, hex⟩, hmw⟩, hpc⟩ := hc
  have hwb : wbStage s = s := by simp only [wbStage, hmw]
  have hview : s.archView = s.cleared s.pc := by
    simp only [State.archView, hid, State.afterMem, hex, hwb, State.frontIndex, hif]
  have hend : (s.cleared s.pc).hasInstr (s.cleared s.pc).pc = false := hpc
  have hrun : (s.cleared s.pc).status = .running := hr
  refine ⟨{ s.cleared s.pc with status := .done }, ?_, .inl ⟨rfl, rfl, rfl, rfl⟩⟩
  rw [hview]
  simp only [seqStep, hrun, hend]
  rfl

/-- A cycle that MEM aborts: `Seq` has stopped in that AddressError (R205 (a)). -/
theorem endsAlike_memError {s u : State} {err : FatalError} (hm : memOut s = .error err)
    (hu : u.status = .error err) : ∃ v, seqStep s.archView = .next v ∧ EndsAlike u v := by
  have hv := archView_of_memOut_error hm
  exact ⟨s.archView, seqStep_stopped (by simp [hv]), .inr ⟨err, err, hv, hu, .inl rfl⟩⟩

/-- `Seq` at an illegal word stops in its FormatError (R140, R200). -/
theorem seqStep_illegal {s : State} (hr : s.status = .running) (hh : s.hasInstr s.pc = true)
    {why : IllegalReason} (hdec : decode (s.progWord s.pc) = .illegal why) :
    seqStep s = .next (abort (.formatError (s.progWord s.pc) s.pc) s.cycle s s) := by
  simp only [seqStep, hr, hh, hdec, if_true]

/-- A cycle that ID aborts: `Seq` comes to the illegal word next, or has stopped in the AddressError of the
instruction before it, which the FormatError overtakes (R205 (d)). -/
theorem endsAlike_formatError {s u : State} (hi : s.inv = true) (hr : s.status = .running) {dmem : Memory}
    {memwb : Latch MemDone} {exmem : Latch Executed} (hm : memOut s = .ok (dmem, memwb))
    (hx : exOut s = .ok exmem) (hred : redirectOf exmem = none) {f : Fetched} (hf : s.ifid = .full f)
    {why : IllegalReason} (hdec : decode f.word = .illegal why) (hl : u.launch = s.launch)
    (hu : u.status = .error (.formatError f.word f.pc)) :
    ∃ v, seqStep s.archView = .next v ∧ EndsAlike u v := by
  obtain ⟨-, -, hif, hid, -⟩ := inv_iff.mp hi
  obtain ⟨hhas, hword, -⟩ := ifidOk_full hif hf
  have hfront : s.frontIndex = f.pc := by simp only [State.frontIndex, hf]
  obtain ⟨hav, hpc⟩ | ⟨a, d, hd, hav⟩ := archView_front hi hr hm hx hred
  · have hh : s.archView.hasInstr f.pc = true := by simpa [State.hasInstr, archView_launch] using hhas
    have hw : s.archView.progWord f.pc = f.word := by
      rw [hword]; simp only [State.progWord, archView_launch]
    rw [← hpc.trans hfront] at hh hw
    have hseq := seqStep_illegal hav hh (hw ▸ hdec)
    refine ⟨_, hseq, .inr ⟨_, _, abort_status .., ?_, .inl rfl⟩⟩
    rw [hw, hpc, hfront, hu]
  · obtain ⟨-, -, -, hnext⟩ := idexOk_full hid hd
    have hfpc : f.pc = d.pc + 1#32 := hfront.symm.trans hnext
    refine ⟨s.archView, seqStep_stopped (by simp [hav]), .inr ⟨_, _, hav, hu, .inr ?_⟩⟩
    refine ⟨a, d.pc, f.word, why, rfl, by rw [hfpc], ?_, hdec⟩
    rw [hword, ← hfpc, hl]
    rfl

/-! ## The run -/

/-- A state of the invariant from which the run goes on: RUNNING and out of reset. -/
structure Live (s : State) : Prop where
  inv : s.inv = true
  running : s.status = .running
  rst : s.rst = false

/-- A step of the run ends it as the next step of `Seq` ends, is that step of `Seq`, or lowers the measure. -/
theorem live_step {s : State} (h : Live s) :
    ∃ t, step s = .next t ∧ t.launch = s.launch ∧
      ((t.status ≠ .running ∧ ∃ v, seqStep s.archView = .next v ∧ EndsAlike t v) ∨
       (Live t ∧ ((s.archView.status = .running ∧ seqStep s.archView = .next t.archView) ∨
          (t.archView = s.archView ∧ waitMeasure t < waitMeasure s)))) := by
  obtain ⟨hi, hr, hrst⟩ := h
  cases hc : s.runsCycle with
  | false =>
    have hcomp : completes s = true := by simpa [State.runsCycle, hr, hrst] using hc
    refine ⟨_, step_idle hc, ?_⟩
    rw [if_pos ⟨hrst, hr⟩]
    exact ⟨rfl, .inl ⟨by simp, endsAlike_completes hr hcomp⟩⟩
  | true =>
    cases hm : memOut s with
    | error err =>
      exact ⟨_, step_memError hc hm, rfl, .inl ⟨by simp, endsAlike_memError hm rfl⟩⟩
    | ok p =>
      obtain ⟨dmem, memwb, exmem, b, hm, hx, hs⟩ := stages_answer hi (memOut_clean.mpr ⟨p, hm⟩)
      cases hid : idOut s (redirectOf exmem) b with
      | error e =>
        obtain ⟨hk, -⟩ | ⟨hred, -, f, hf, ⟨why, hdec, hk⟩ | ⟨i, -, hk⟩⟩ :=
          idOut_cases s (redirectOf exmem) b <;> cases hk.symm.trans hid
        exact ⟨_, step_idError hc hm hx hs hid, rfl,
          .inl ⟨by simp, endsAlike_formatError hi hr hm hx hred hf hdec rfl rfl⟩⟩
      | ok idex =>
        have hstep := step_ok hc hm hx hs hid
        refine ⟨_, hstep, rfl, .inr ⟨⟨cycleDone_inv hi hr hm hx hs hid, hr, hrst⟩, ?_⟩⟩
        exact cycle_progress hi hc hstep hr

/-- Where `Seq` stops, the run ends as `Seq` does: the induction is on the steps `Seq` still takes, and between
two of them on the measure. -/
theorem live_ends {s : State} (h : Live s) {n : Nat} {v : State} (hseq : seqRun n s.archView = .next v)
    (hv : v.status ≠ .running) :
    ∃ m u, ReachesIn m s u ∧ u.launch = s.launch ∧ EndsAlike u v := by
  obtain ⟨t, ht, hl, ⟨-, w, hw, halike⟩ | ⟨hlive, hnext⟩⟩ := live_step h
  · have hone : seqRun 1 s.archView = .next w := seqRun_succ.mpr ⟨w, hw, rfl⟩
    have hvw : w = v := seqRun_unique hone hseq halike.seq_stopped hv
    exact ⟨1, t, reaches_succ.mpr ⟨t, ht, reaches_zero.mpr rfl⟩, hl, hvw ▸ halike⟩
  · have hrest : ∃ m u, ReachesIn m t u ∧ u.launch = t.launch ∧ EndsAlike u v := by
      obtain ⟨hav, hstep⟩ | ⟨hsame, hlt⟩ := hnext
      · cases n with
        | zero => cases hseq; exact absurd hav hv
        | succ n =>
          obtain ⟨w, hw, hrun⟩ := seqRun_succ.mp hseq
          cases hstep.symm.trans hw
          exact live_ends hlive hrun hv
      · exact live_ends hlive (hsame ▸ hseq) hv
    obtain ⟨m, u, hm, hlu, halike⟩ := hrest
    exact ⟨m + 1, u, reaches_succ.mpr ⟨t, ht, hm⟩, hlu.trans hl, halike⟩
termination_by (n, waitMeasure s)

/-- What the pipeline stands for right after reset is the reset state itself. -/
theorem archView_resetOf (l : Launch) : (State.resetOf l).archView = State.resetOf l := rfl

/-- The invariant after reset: the latches are EMPTY, and INIT_MEM is cut to the extent (R46). -/
theorem inv_resetOf {l : Launch} (hl : l.wf = true) : (State.resetOf l).inv = true := by
  refine inv_iff.mpr ⟨hl, ?_, rfl, rfl, rfl, rfl, rfl⟩
  simp only [Launch.wf, Bool.and_eq_true] at hl
  simp only [dmemOk, resetOf_dmem, resetOf_launch, Memory.wf_restrict l.memWords hl.2,
    Memory.within_restrict, Bool.and_self]

theorem live_resetOf {l : Launch} (hl : l.wf = true) : Live (State.resetOf l) :=
  ⟨inv_resetOf hl, rfl, rfl⟩

/-- From reset the run ends as `Seq` does. -/
theorem reset_ends {l : Launch} (hl : l.wf = true) {n : Nat} {v : State}
    (hseq : seqRun n (State.resetOf l) = .next v) (hv : v.status ≠ .running) :
    ∃ m u, ReachesIn m (State.resetOf l) u ∧ u.launch = l ∧ EndsAlike u v :=
  live_ends (live_resetOf hl) (by rwa [archView_resetOf]) hv

/-- Settles O54: the run from reset ends as `Seq` does, here in DONE. -/
theorem pipelineEndsDoneWhenSeqHalts : Obligations.PipelineEndsDoneWhenSeqHalts := by
  rintro l t hl ⟨n, hseq, ht⟩
  obtain ⟨m, u, hm, -, halike⟩ := reset_ends hl hseq (by simp [ht])
  obtain ⟨hu, hx, hd⟩ := halike.of_done ht
  exact ⟨u, ⟨m, hm, hu⟩, hx, hd⟩

/-- Settles O56: the run from reset ends as `Seq` does, here in an error, its own or one that overtakes it. -/
theorem pipelineEndsInErrorWhenSeqStops : Obligations.PipelineEndsInErrorWhenSeqStops := by
  rintro l t e hl ⟨n, hseq, ht⟩
  obtain ⟨m, u, hm, rfl, halike⟩ := reset_ends hl hseq (by simp [ht])
  obtain ⟨e', hu, hor⟩ := halike.of_error ht
  exact ⟨u, e', ⟨m, hm, hu⟩, hor⟩

/-- `Seq` never stops from `s`. -/
def SeqGoesOn (s : State) : Prop := ∀ n, ∃ t, seqRun n s = .next t ∧ t.status = .running

theorem SeqGoesOn.step {s t : State} (h : SeqGoesOn s) (ht : seqStep s = .next t) :
    t.status = .running ∧ SeqGoesOn t := by
  have hnext (n : Nat) : ∃ u, seqRun n t = .next u ∧ u.status = .running := by
    obtain ⟨u, hu, hr⟩ := h (n + 1)
    obtain ⟨t', ht', hrun⟩ := seqRun_succ.mp hu
    cases ht.symm.trans ht'
    exact ⟨u, hrun, hr⟩
  obtain ⟨u, hu, hr⟩ := hnext 0
  cases hu
  exact ⟨hr, hnext⟩

/-- Where `Seq` never stops, no cycle ends the run. -/
theorem live_goes_on {s : State} (h : Live s) (hseq : SeqGoesOn s.archView) (n : Nat) :
    ∃ u, ReachesIn n s u ∧ u.status = .running := by
  induction n generalizing s with
  | zero => exact ⟨s, reaches_zero.mpr rfl, h.running⟩
  | succ n ih =>
    obtain ⟨t, ht, -, ⟨-, v, hv, halike⟩ | ⟨hlive, hnext⟩⟩ := live_step h
    · exact absurd (hseq.step hv).1 halike.seq_stopped
    · have hgo : SeqGoesOn t.archView := by
        obtain ⟨-, hstep⟩ | ⟨hsame, -⟩ := hnext
        · exact (hseq.step hstep).2
        · exact hsame ▸ hseq
      obtain ⟨u, hu, hr⟩ := ih hlive hgo
      exact ⟨u, reaches_succ.mpr ⟨t, ht, hu⟩, hr⟩

/-- Settles O55: what the reset state stands for is itself, so no cycle of its run ends it. -/
theorem pipelineRunsForeverWhenSeqDoes : Obligations.PipelineRunsForeverWhenSeqDoes :=
  fun l hl hseq => live_goes_on (live_resetOf hl) (archView_resetOf l ▸ hseq)

end Sys2Proof.Machine
end

section
/-! PROOFS. Forwarding (40_pipeline.md R125 to R129): what each latch offers the multiplexer, the priority between
the two, and the breach on an LW in EX/MEM. -/

namespace Sys2Proof.Machine

/-! ## What a latch offers (R126) -/

theorem not_candidate {dest r : RegIdx} (h : dest = 0#5 ∨ dest ≠ r) : ¬(dest ≠ 0#5 ∧ dest = r) := by
  rintro ⟨h0, hr⟩
  exact h.elim h0 fun hne => hne hr

section

variable {c : Ctrl} (pc : Word) (r : RegIdx)

theorem forwardExMem_regWrite_zero {e : Executed} (h : e.ctrl.regWrite = .zero) :
    forwardExMem (.full e) r = .ok none := by
  simp only [forwardExMem, h]
  rfl

theorem forwardExMem_aluResult (h : c.regWrite = .one) (op : AluOp) (dest : RegIdx) (value : Word) :
    forwardExMem (.full ⟨.aluResult op dest value, c, pc⟩) r =
      .ok (if dest ≠ 0#5 ∧ dest = r then some value else none) := by
  simp only [forwardExMem, h]
  split <;> rfl

theorem forwardExMem_loadAddr_match (h : c.regWrite = .one) {dest : RegIdx} (addr : Word) (h0 : dest ≠ 0#5) :
    forwardExMem (.full ⟨.loadAddr dest addr, c, pc⟩) dest = .error .forwardFromLoad := by
  simp [forwardExMem, h, Tri.asBool, bind, Except.bind, h0]

theorem forwardExMem_loadAddr_other (h : c.regWrite = .one) {dest : RegIdx} (addr : Word)
    (hr : dest = 0#5 ∨ dest ≠ r) : forwardExMem (.full ⟨.loadAddr dest addr, c, pc⟩) r = .ok none := by
  simp only [forwardExMem, h, Tri.asBool, bind, Except.bind, if_true, if_neg (not_candidate hr)]

theorem forwardMemWb_regWrite_zero {m : MemDone} (h : m.ctrl.regWrite = .zero) :
    forwardMemWb (.full m) r = .ok none := by
  simp only [forwardMemWb, h]
  rfl

theorem forwardMemWb_aluPass (h : c.regWrite = .one) (op : AluOp) (dest : RegIdx) (value : Word) :
    forwardMemWb (.full ⟨.aluPass op dest value, c, pc⟩) r =
      .ok (if dest ≠ 0#5 ∧ dest = r then some value else none) := by
  simp only [forwardMemWb, h]
  split <;> rfl

theorem forwardMemWb_loaded (h : c.regWrite = .one) (dest : RegIdx) (value : Word) :
    forwardMemWb (.full ⟨.loaded dest value, c, pc⟩) r =
      .ok (if dest ≠ 0#5 ∧ dest = r then some value else none) := by
  simp only [forwardMemWb, h]
  split <;> rfl

end

/-! ## The priority (R126) -/

section

variable {s : State} {r : RegIdx} {v : Word} (x : RegFile)

theorem forward_of_exMem (h : forwardExMem s.exmem r = .ok (some v)) :
    forward s x r = .ok (.forwardFromExMem, v) := by
  simp only [forward, h]
  rfl

theorem forward_of_memWb (h : forwardExMem s.exmem r = .ok none) (hw : forwardMemWb s.memwb r = .ok (some v)) :
    forward s x r = .ok (.forwardFromMemWb, v) := by
  simp only [forward, h, hw]
  rfl

theorem forward_of_neither (h : forwardExMem s.exmem r = .ok none) (hw : forwardMemWb s.memwb r = .ok none) :
    forward s x r = .ok (.useRegisterFile, readReg x r) := by
  simp only [forward, h, hw]
  rfl

theorem forward_of_breach {b : Breach} (h : forwardExMem s.exmem r = .error b) : forward s x r = .error b := by
  simp only [forward, h]
  rfl

end

/-- Settles O16: each clause names what EX/MEM and MEM/WB offer, and the multiplexer takes the first offer. -/
theorem forwardingPriority : Obligations.ForwardingPriority := by
  intro s x r
  refine ⟨fun op dest value c pc he hc h0 hr => forward_of_exMem x ?_, fun hno => ?_⟩
  · rw [he, forwardExMem_aluResult _ _ hc, if_pos ⟨h0, hr⟩]
  have hex : forwardExMem s.exmem r = .ok none := by
    obtain he | ⟨e, he, hc⟩ | ⟨op, dest, value, c, pc, he, hc, hr⟩ | ⟨dest, addr, c, pc, he, hc, hr⟩ := hno <;>
      rw [he]
    · rfl
    · exact forwardExMem_regWrite_zero _ hc
    · rw [forwardExMem_aluResult _ _ hc, if_neg (not_candidate hr)]
    · exact forwardExMem_loadAddr_other _ _ hc _ hr
  refine ⟨fun op dest value c pc hm hc h0 hr => forward_of_memWb x hex ?_,
    fun dest value c pc hm hc h0 hr => forward_of_memWb x hex ?_, fun hno => forward_of_neither x hex ?_⟩
  · rw [hm, forwardMemWb_aluPass _ _ hc, if_pos ⟨h0, hr⟩]
  · rw [hm, forwardMemWb_loaded _ _ hc, if_pos ⟨h0, hr⟩]
  · obtain hm | ⟨m, hm, hc⟩ | ⟨op, dest, value, c, pc, hm, hc, hr⟩ | ⟨dest, value, c, pc, hm, hc, hr⟩ := hno <;>
      rw [hm]
    · rfl
    · exact forwardMemWb_regWrite_zero _ hc
    · rw [forwardMemWb_aluPass _ _ hc, if_neg (not_candidate hr)]
    · rw [forwardMemWb_loaded _ _ hc, if_neg (not_candidate hr)]

/-! ## The breach (R129, R206) -/

/-- A source whose multiplexer breaches leaves the instruction without a result: EX breaches, on it or on the
other source. -/
theorem exResult_breach {s : State} {x : RegFile} {d : Decoded} {r : RegIdx} {b : Breach}
    (hr : r ∈ srcsOf d.instr) (h : fwd s x r = .error b) : ∃ b', exResult s x d = .error b' := by
  obtain ⟨i, c, pc⟩ := d
  have two (q q' : RegIdx) (k : Word → Word → ExResult) (hq : r = q ∨ r = q') :
      ∃ b', (do return k (← fwd s x q) (← fwd s x q') : Except Breach ExResult) = .error b' := by
    obtain rfl | rfl := hq
    · exact ⟨b, by rw [h]; rfl⟩
    · cases hq : fwd s x q with
      | error b' => exact ⟨b', rfl⟩
      | ok v => exact ⟨b, by rw [h]; rfl⟩
  cases i with
  | add rd rs rt => exact two rs rt (exAdd rd) (by simpa [srcsOf] using hr)
  | sub rd rs rt => exact two rs rt (exSub rd) (by simpa [srcsOf] using hr)
  | beq rs rt off => exact two rs rt (exBeq off · · pc) (by simpa [srcsOf] using hr)
  | sw rt off rs => exact two rs rt (exSw rt off) (by simpa [srcsOf] using hr)
  | lw rt off rs =>
    obtain rfl : r = rs := by simpa [srcsOf] using hr
    exact ⟨b, by simp only [exResult, h]; rfl⟩

/-- Settles O17: EX/MEM answers before MEM/WB and the register file are asked, and in the cycle EX comes right after
a MEM that raises nothing. -/
theorem loadAddressIsNeverForwarded : Obligations.LoadAddressIsNeverForwarded := by
  intro s dest addr c pc he hc h0
  have hfwd (x : RegFile) : forward s x dest = .error .forwardFromLoad :=
    forward_of_breach x (by rw [he, forwardExMem_loadAddr_match _ hc _ h0])
  refine ⟨hfwd, fun d hd hsrc hrun hext => ?_⟩
  have hclean : memClean s = true := by simp only [memClean, he, hext]
  obtain ⟨⟨dmem, memwb⟩, hm⟩ := memOut_clean.mp hclean
  have hfwd' : fwd s (wbStage s).x dest = .error .forwardFromLoad := by simp only [fwd, hfwd]; rfl
  obtain ⟨b, hb⟩ := exResult_breach hsrc hfwd'
  exact ⟨b, by rw [step_runs hrun, runStages_eq, hm]; simp only [exOut, hd, hb]⟩

end Sys2Proof.Machine
end

section
/-! PROOFS. The load-use stall and the taken branch (40_pipeline.md R130 to R138). -/

namespace Sys2Proof.Machine

/-! ## The stall (R130 to R132) -/

/-- Settles O20: the comparator is the load-use condition where both latches hold a payload, and 0 elsewhere. -/
theorem stallIsTheLoadUseCondition : Obligations.StallIsTheLoadUseCondition := by
  intro s hctrl
  refine ⟨?_, fun h => ?_, ?_⟩
  · obtain ⟨_ | _, hs⟩ := stallSignal_total hctrl
    · exact .inr hs
    · exact .inl hs
  · obtain ⟨⟨i, c, pc⟩, f, rt, off, rs, hd, hf, rfl, hsrc⟩ := stallSignal_true h
    exact ⟨rt, off, rs, c, pc, f, hd, hf, hsrc⟩
  · rintro ⟨rt, off, rs, c, pc, f, hd, hf, hsrc⟩
    rw [stallSignal_full hd hf (hctrl _ hd)]
    simp only [readsLoad, hsrc, decide_true]

/-- A stall cycle in which MEM raises nothing: ID/EX gets a bubble, IF/ID and `pc` are held (R131). -/
theorem step_stall {s : State} (hi : s.inv = true) (hc : s.runsCycle = true) (hclean : memClean s = true)
    (hst : stallSignal s = .ok true) :
    ∃ dmem memwb exmem, memOut s = .ok (dmem, memwb) ∧ exOut s = .ok exmem ∧
      step s = .next (cycleDone s dmem memwb exmem .empty (s.ifid, s.pc)) := by
  obtain ⟨dmem, memwb, exmem, -, hm, hx, -⟩ := stages_answer hi hclean
  have hred := stall_noredirect hx hst
  have hid : idOut s (redirectOf exmem) true = .ok .empty := by rw [hred]; rfl
  exact ⟨dmem, memwb, exmem, hm, hx, step_ok hc hm hx hst hid⟩

/-- Settles O21: the stall cycle is `cycleDone`, in which EX, MEM and WB hand on what they hold. -/
theorem stallFreezesFetchAndDecode : Obligations.StallFreezesFetchAndDecode := by
  intro s hi hc hclean hst
  obtain ⟨dmem, memwb, exmem, hm, hx, ht⟩ := step_stall hi hc hclean hst
  have hr := runs_running hc
  exact ⟨_, ht, hr, rfl, rfl, rfl, exmemPc_cycleDone hx, memwbPc_cycleDone hm, rfl⟩

/-- With a bubble in ID/EX there is neither a stall nor a redirect: ID decodes what IF/ID holds. -/
theorem decodesNext_of_bubble {s : State} (hd : s.idex = .empty) : decodesNext s = s.ifid := by
  simp only [decodesNext, redirectSignal, hd, stallSignal_idex_empty hd]

/-- Settles O22: the bubble that the stall put into ID/EX ends it, and in the next cycle every instruction moves one
latch on. -/
theorem stallLastsOneCycle : Obligations.StallLastsOneCycle := by
  intro s t hi hc hst ht htr
  have hclean : memClean s = true := by
    obtain ⟨dmem, memwb, -, -, -, hm, -⟩ := step_ok_cases hc ht htr
    exact memOut_clean.mpr ⟨_, hm⟩
  obtain ⟨dmem, memwb, exmem, hm, hx, ht'⟩ := step_stall hi hc hclean hst
  cases ht'.symm.trans ht
  have hstall : stallSignal (cycleDone s dmem memwb exmem .empty (s.ifid, s.pc)) = .ok false :=
    stallSignal_idex_empty rfl
  refine ⟨hstall, decodesNext_of_bubble rfl, fun u hu hur => ?_⟩
  have hrst := runsCycle_rst hc
  have hrun : (cycleDone s dmem memwb exmem .empty (s.ifid, s.pc)).runsCycle = true := by
    by_contra hidle
    exact idle_not_running (by simpa using hidle) hu hrst hur
  obtain ⟨hmw, -, -, -, hdecodes⟩ := instructionsMoveOneLatchACycle _ u hrun hu hur
  exact ⟨hdecodes rfl hstall, hmw.trans (exmemPc_cycleDone hx)⟩

/-! ## The redirect (R135 to R138) -/

/-- A redirect comes from a BEQ in ID/EX. -/
theorem redirectSignal_some {s : State} {target : Word} (h : redirectSignal s = .ok (some target)) :
    ∃ rs rt off c pc, s.idex = .full ⟨.beq rs rt off, c, pc⟩ := by
  unfold redirectSignal at h
  split at h
  · cases h
  · rename_i d hd
    split at h
    · cases h
    · rename_i taken hr
      have hfit := exResult_fits hr
      obtain ⟨i, c, pc⟩ := d
      cases i <;> simp [exFits] at hfit
      exact ⟨_, _, _, c, pc, hd⟩
    · cases h

/-- Settles O23: an LW is not a BEQ. -/
theorem stallAndRedirectNeverCoincide : Obligations.StallAndRedirectNeverCoincide := by
  intro s target
  have hlw (h : stallSignal s = .ok true) : ∃ rt off rs c pc, s.idex = .full ⟨.lw rt off rs, c, pc⟩ := by
    obtain ⟨⟨i, c, pc⟩, f, rt, off, rs, hd, -, rfl, -⟩ := stallSignal_true h
    exact ⟨rt, off, rs, c, pc, hd⟩
  refine ⟨fun hst hred => ?_, hlw, redirectSignal_some⟩
  obtain ⟨rt, off, rs, c, pc, hd⟩ := hlw hst
  obtain ⟨rs', rt', off', c', pc', hd'⟩ := redirectSignal_some hred
  rw [hd] at hd'
  cases hd'

/-- EX resolves a BEQ on the operands the multiplexers give (R170). -/
theorem exOut_beq {s : State} {rs rt : RegIdx} {off : Word} {c : Ctrl} {pc a b : Word}
    (hd : s.idex = .full ⟨.beq rs rt off, c, pc⟩) (ha : fwd s (wbStage s).x rs = .ok a)
    (hb : fwd s (wbStage s).x rt = .ok b) :
    exOut s = .ok (.full ⟨.branchOutcome (a == b) (pc + off), c, pc⟩) := by
  simp only [exOut, hd, exResult, ha, hb]
  rfl

theorem stallSignal_beq {s : State} (hi : s.inv = true) {rs rt : RegIdx} {off : Word} {c : Ctrl} {pc : Word}
    (hd : s.idex = .full ⟨.beq rs rt off, c, pc⟩) : stallSignal s = .ok false := by
  cases hf : s.ifid with
  | empty => exact stallSignal_ifid_empty hf
  | full f => exact stallSignal_full hd hf (inv_ctrl hi hd)

theorem fetchAt_inside {s : State} {k : Word} (h : k.toNat < s.launch.progLen) :
    fetchAt s k = (.full ⟨s.progWord k, k⟩, k + 1#32) := by
  simp only [fetchAt, hasInstr_iff.mpr h, if_true]

theorem fetchAt_outside {s : State} {k : Word} (h : s.launch.progLen ≤ k.toNat) :
    fetchAt s k = (.empty, k) := by
  simp only [fetchAt, hasInstr_false_iff.mpr h, Bool.false_eq_true, if_false]

/-- Settles O24: EX drives the redirect, ID squashes before it decodes, and IF fetches at the target. -/
theorem takenBranchSquashesAndFetchesTheTarget : Obligations.TakenBranchSquashesAndFetchesTheTarget := by
  intro s rs rt off c pc a hi hc hclean hd ha hb
  obtain ⟨⟨dmem, memwb⟩, hm⟩ := memOut_clean.mp hclean
  have hx : exOut s = .ok (.full ⟨.branchOutcome true (pc + off), c, pc⟩) := by
    simpa using exOut_beq hd ha hb
  have ht := step_ok hc hm hx (stallSignal_beq hi hd) rfl
  have hr := runs_running hc
  refine ⟨_, ht, hr, rfl, rfl, fun hin => ?_, fun hout => ?_⟩
  · have hfetch := fetchAt_inside hin
    exact ⟨congrArg Prod.fst hfetch, congrArg Prod.snd hfetch⟩
  · have hfetch := fetchAt_outside hout
    exact ⟨congrArg Prod.fst hfetch, congrArg Prod.snd hfetch⟩

end Sys2Proof.Machine
end

section
/-! PROOFS. What a cycle writes (40_pipeline.md R115 to R118): registers in WB, data memory and MEM/WB in MEM, EX/MEM
in EX; and the completion cycle (R112). -/

namespace Sys2Proof.Machine

/-! ## Registers (R115) -/

/-- A step in which no cycle runs writes nothing. -/
theorem step_idle_frame {s t : State} (hc : s.runsCycle = false) (h : step s = .next t) :
    t.x = s.x ∧ t.dmem = s.dmem := by
  rw [step_idle hc] at h
  cases h
  split <;> exact ⟨rfl, rfl⟩

/-- A cycle writes registers in WB alone, whichever stage aborts it. -/
theorem step_runs_x {s t : State} (hc : s.runsCycle = true) (h : step s = .next t) : t.x = (wbStage s).x := by
  rw [step_runs hc] at h
  obtain ⟨_, -, rfl⟩ | ⟨_, _, _, _, -, -, -, ⟨_, -, rfl⟩ | ⟨_, -, rfl⟩⟩ := runStages_cases h <;> rfl

/-- A register after WB, by what WB writes. -/
theorem readReg_wbStage (s : State) (r : RegIdx) :
    readReg (wbStage s).x r =
      match writtenNow s with
      | some (dest, value) => if r = dest ∧ dest ≠ 0#5 then value else readReg s.x r
      | none => readReg s.x r := by
  rw [wbStage_x, writtenNow]
  rcases s.memwb with _ | ⟨_ | _ | _, c, pc⟩
  · rfl
  · exact readReg_writePort ..
  · exact readReg_writePort ..
  · rfl

/-- Settles O29, by whether a cycle runs. -/
theorem registersChangeOnlyByWriteBack : Obligations.RegistersChangeOnlyByWriteBack := by
  intro s t h r
  cases hc : s.runsCycle with
  | false => rw [(step_idle_frame hc h).1]
  | true =>
    rw [step_runs_x hc h, readReg_wbStage]
    cases writtenNow s <;> rfl

/-! ## Data memory (R118, R144) -/

/-- The data memory after MEM, by what MEM stores. -/
theorem read_memOut {s : State} {dmem : Memory} {memwb : Latch MemDone} (hwf : Memory.wf s.dmem = true)
    (hm : memOut s = .ok (dmem, memwb)) (a : Nat) :
    dmem.read a =
      match storedNow s with
      | some (addr, value) => if a = addr.toNat then value else s.dmem.read a
      | none => s.dmem.read a := by
  obtain ⟨he, -, rfl⟩ | ⟨⟨result, c, pc⟩, m, he, -, ha⟩ := memOut_latch hm
  · simp only [storedNow, he]
  · obtain ⟨-, -, ⟨_, _, _, rfl, -, rfl⟩ | ⟨_, _, rfl, -, rfl⟩ | ⟨_, _, rfl, -, -, rfl⟩ |
      ⟨addr, src, data, rfl, hext, -, rfl⟩⟩ := memAccess_cases ha
    · simp only [storedNow, he]
    · simp only [storedNow, he]
    · simp only [storedNow, he]
    · simp only [storedNow, he, hext, if_true]
      exact Memory.read_write hwf ..

/-- A store that MEM refuses stores nothing. -/
theorem storedNow_of_memOut_error {s : State} {err : FatalError} (hm : memOut s = .error err) :
    storedNow s = none := by
  rcases he : s.exmem with _ | ⟨_ | _ | ⟨addr, src, data⟩ | _, c, pc⟩ <;> simp only [storedNow, he]
  cases hext : s.inExtent addr with
  | false => rfl
  | true => simp [memOut, he, memAccess, hext] at hm

/-- Settles O30, by whether a cycle runs and MEM raises an error in it; an error of ID comes after MEM's store. -/
theorem memoryChangesOnlyByAStoreInMem : Obligations.MemoryChangesOnlyByAStoreInMem := by
  intro s t hwf h a
  cases hc : s.runsCycle with
  | false => rw [(step_idle_frame hc h).2]
  | true =>
    rw [step_runs hc] at h
    obtain ⟨_, hm, rfl⟩ | ⟨dmem, memwb, _, _, hm, -, -, ⟨_, -, rfl⟩ | ⟨_, -, rfl⟩⟩ := runStages_cases h
    · rw [storedNow_of_memOut_error hm, abort_dmem, wbStage_dmem]
    · rw [abort_dmem, read_memOut hwf hm]
      cases storedNow s <;> rfl
    · rw [cycleDone_dmem, read_memOut hwf hm]
      cases storedNow s <;> rfl

/-! ## MEM/WB (R118) -/

/-- Settles O31, by the payload in EX/MEM. -/
theorem memStageFillsMemWb : Obligations.MemStageFillsMemWb := by
  intro s t hc ht htr
  obtain ⟨dmem, memwb, _, _, _, hm, -, -, -, rfl⟩ := step_ok_cases hc ht htr
  rw [cycleDone_memwb]
  obtain ⟨he, rfl, -⟩ | ⟨⟨result, c, pc⟩, ⟨result', c', pc'⟩, he, rfl, ha⟩ := memOut_latch hm <;> rw [he]
  obtain ⟨rfl, rfl, ⟨_, _, _, rfl, rfl, -⟩ | ⟨_, _, rfl, rfl, -⟩ | ⟨_, _, rfl, -, rfl, -⟩ |
    ⟨_, _, _, rfl, -, rfl, -⟩⟩ := memAccess_cases ha <;> rfl

/-! ## EX/MEM (R117) -/

/-- The registers the older instructions leave are those the instruction in ID/EX sees. -/
theorem olderX_eq_olderView {s : State} {dmem : Memory} {memwb : Latch MemDone}
    (hm : memOut s = .ok (dmem, memwb)) : olderX s memwb = (olderView s).x := by
  obtain ⟨he, rfl, -⟩ | ⟨e, m, he, rfl, ha⟩ := memOut_latch hm
  · simp only [olderX, olderView, he]
  · have ha' : memAccess (wbStage s) e = .ok (dmem, m) :=
      (memAccess_congr e (wbStage_dmem s) (wbStage_launch s)).trans ha
    simp only [olderX, olderView, he, finish_ok ha']

/-- Settles O32: EX puts `exOf` of the instruction into EX/MEM, and with MEM and ID clean the cycle is committed. -/
theorem exStageComputesEachInstruction : Obligations.ExStageComputesEachInstruction := by
  intro s d hi hc hclean hidc hd
  obtain ⟨dmem, memwb, -, b, hm, -, hs⟩ := stages_answer hi hclean
  have hx := exOut_ok hi hm hd
  rw [olderX_eq_olderView hm] at hx
  obtain ⟨idex, hid⟩ := idOut_of_idClean hx hs hidc
  have hr := runs_running hc
  refine ⟨_, step_ok hc hm hx hs hid, hr, ?_⟩
  obtain ⟨i, c, pc⟩ := d
  cases i <;> rfl

/-! ## Completion (R112) -/

/-- Settles O26: the run is complete, so no cycle runs and the step sets DONE. -/
theorem completionOnlySetsDone : Obligations.CompletionOnlySetsDone := by
  intro s hrst hr hif hid hex hmw hpc
  have hcomp : completes s = true := by simp [completes, hif, hid, hex, hmw, hasInstr_false_iff.mpr hpc]
  have hc : s.runsCycle = false := by simp [State.runsCycle, hcomp]
  rw [step_idle hc, if_pos ⟨hrst, hr⟩]

end Sys2Proof.Machine
end

section
/-! PROOFS. The ports (40_pipeline.md R150 to R153): the loads, the reset pin, the snapshot, the final results and the
host's reads. -/

namespace Sys2Proof.Machine

/-! ## Loads (R150, R231) -/

theorem sampleExtent_le {old : Nat} (v : BitVec 33) (h : old ≤ Config.maxExtent) :
    sampleExtent old v ≤ Config.maxExtent := by
  unfold sampleExtent
  split
  · assumption
  · exact h

theorem sampleExtent_of_le (old : Nat) {v : BitVec 33} (h : v.toNat ≤ 2 ^ 32) : sampleExtent old v = v.toNat :=
  if_pos h

/-- A write port of a memory keeps the canonical form. -/
theorem wf_write_if {m : Memory} (we : Bool) (a : Nat) (v : Word) (hm : Memory.wf m = true) :
    Memory.wf (if we then m.write a v else m) = true := by
  cases we with
  | false => exact hm
  | true => exact Memory.wf_write hm a v

/-- A write port of a memory writes the addressed word where it is enabled. -/
theorem read_write_if {m : Memory} (we : Bool) (b : Nat) (v : Word) (hm : Memory.wf m = true) (a : Nat) :
    Memory.read (if we then m.write b v else m) a = if we = true ∧ a = b then v else m.read a := by
  cases we with
  | false => simp
  | true => simp [Memory.read_write hm]

theorem launch_wf_iff {l : Launch} : l.wf = true ↔ l.progLen ≤ Config.maxExtent ∧
    l.memWords ≤ Config.maxExtent ∧ Memory.wf l.prog = true ∧ Memory.wf l.initMem = true := by
  simp [Launch.wf, and_assoc]

/-- The host's loads keep a launch well formed (R7). -/
theorem load_wf {l : Launch} (p : PortIn) (h : l.wf = true) : (l.load p).wf = true := by
  obtain ⟨hn, hw, hp, hm⟩ := launch_wf_iff.mp h
  exact launch_wf_iff.mpr ⟨sampleExtent_le _ hn, sampleExtent_le _ hw, wf_write_if _ _ _ hp, wf_write_if _ _ _ hm⟩

/-- The register port writes the addressed register where it is enabled, and register 0 never. -/
theorem readReg_load (l : Launch) (p : PortIn) (r : RegIdx) :
    readReg (l.load p).initRegs r =
      if p.hrWe = true ∧ r = p.hrAddr ∧ r ≠ 0#5 then p.hrWdata else readReg l.initRegs r := by
  simp only [Launch.load]
  cases p.hrWe with
  | false => simp
  | true =>
    have hzero : (r = p.hrAddr ∧ p.hrAddr ≠ 0#5) ↔ (r = p.hrAddr ∧ r ≠ 0#5) :=
      and_congr_right fun h => by rw [h]
    simp [readReg_writePort, hzero]

/-- Settles O39, port by port. -/
theorem loadPortsFillTheLaunch : Obligations.LoadPortsFillTheLaunch := by
  intro p l hl
  obtain ⟨-, -, hp, hm⟩ := launch_wf_iff.mp hl
  exact ⟨load_wf p hl, sampleExtent_of_le _, sampleExtent_of_le _, read_write_if _ _ _ hp,
    read_write_if _ _ _ hm, readReg_load l p⟩

/-- Settles O38: the three arms of `portEdge`, by the pin now and at the edge before. -/
theorem resetPinAndLoadPorts : Obligations.ResetPinAndLoadPorts := by
  intro p s
  refine ⟨fun hp => ?_, fun hp hs => ?_, fun hp hs => ?_⟩
  · simp only [portEdge, hp, if_true]
  · simp only [portEdge, hp, hs, Bool.false_eq_true, if_false, if_true]
  · simp only [portEdge, hp, hs, Bool.false_eq_true, if_false]

/-! ## Outputs (R150 to R152) -/

/-- Settles O40: a step keeps the pin, so the snapshot's condition is that the core was RUNNING out of reset and
still is, which a step without a cycle never satisfies. -/
theorem snapshotAfterRunningCycles : Obligations.SnapshotAfterRunningCycles := by
  intro s t h
  obtain ⟨-, hrst⟩ := step_launch h
  refine ⟨fun hc htr => ?_, fun hno => if_neg fun hsnap => ?_⟩
  · simp [snapshotAfter, hrst, runsCycle_rst hc, runs_running hc, htr]
  · simp only [Bool.and_eq_true, Bool.not_eq_true', beq_iff_eq] at hsnap
    obtain ⟨⟨⟨hs, -⟩, -⟩, htr⟩ := hsnap
    obtain hc | hstop := hno
    · exact idle_not_running hc h hs htr
    · exact hstop htr

/-- The registers of the final results, in order. -/
theorem finalRegs_getElem? (x : RegFile) (r : RegIdx) :
    ((List.range Config.nregs).map fun i => readReg x (BitVec.ofNat 5 i))[r.toNat]? = some (readReg x r) := by
  have hr : r.toNat < Config.nregs := r.isLt
  simp [hr]

/-- Settles O41, by whether the status is DONE; register 0 is one of the 32. -/
theorem finalResultsOnDone : Obligations.FinalResultsOnDone := by
  intro s
  refine ⟨fun h => ⟨_, if_pos (by simp [h]), ?_, finalRegs_getElem? s.x, finalRegs_getElem? s.x 0#5, rfl, rfl, rfl⟩,
    fun h => if_neg (by simpa using h)⟩
  simp [Config.nregs]

/-- Settles O42: out of reset a read is valid exactly where the status is not RUNNING. -/
theorem hostReadsAfterTheRun : Obligations.HostReadsAfterTheRun := by
  intro s hrst
  refine ⟨fun hr => ?_, fun hr => by simp [hostReadValid, hrst, hr]⟩
  have hvalid : hostReadValid s = true := by simpa [hostReadValid, hrst] using hr
  have hreg (r : RegIdx) : hrRdata s r = some (readReg s.x r) := by simp [hrRdata, hvalid, hrst]
  refine ⟨hreg, hreg 0#5, fun a ha => ?_⟩
  simp [hmRdata, hvalid, hrst, inExtent_iff.mpr ha]

end Sys2Proof.Machine
end

section
/-! PROOFS. The statement about the arithmetic (41_arithmetic.md): ADD and SUB modulo `2^32`, whether the operands
are read as unsigned or as signed values (R160). -/

namespace Sys2Proof.Machine

/-- `toNat` subtracts in the naturals by adding `2^32`; on the integers that term is gone modulo `2^32`. -/
theorem word_toNat_sub (a b : Word) : ((a - b).toNat : Int) = ((a.toNat : Int) - (b.toNat : Int)) % 2 ^ 32 := by
  rw [BitVec.toNat_sub]
  omega

/-- Both signed values are the same balanced remainder of the sum. -/
theorem add_eq_ofInt_toInt {n : Nat} (a b : BitVec n) : a + b = BitVec.ofInt n (a.toInt + b.toInt) :=
  BitVec.eq_of_toInt_eq (by rw [BitVec.toInt_add, BitVec.toInt_ofInt])

/-- Both signed values are the same balanced remainder of the difference. -/
theorem sub_eq_ofInt_toInt {n : Nat} (a b : BitVec n) : a - b = BitVec.ofInt n (a.toInt - b.toInt) :=
  BitVec.eq_of_toInt_eq (by rw [BitVec.toInt_sub, BitVec.toInt_ofInt])

/-- Settles O10: a destination other than register 0 reads back as the sum or the difference of the operand words,
which wraps their unsigned values and, with the same bits, their signed ones. -/
theorem arithmeticWrapsModulo : Obligations.ArithmeticWrapsModulo := by
  intro rd rs rt s hrd
  have hwritten (v : Word) : readReg (writePort s.x rd v) rd = v := by
    rw [readReg_writePort, if_pos ⟨rfl, hrd⟩]
  refine ⟨⟨_, exec_add rd rs rt s, rfl, ?_, ?_⟩, ⟨_, exec_sub rd rs rt s, rfl, ?_, ?_⟩⟩ <;> rw [hwritten]
  · exact BitVec.toNat_add _ _
  · exact add_eq_ofInt_toInt _ _
  · exact word_toNat_sub _ _
  · exact sub_eq_ofInt_toInt _ _

end Sys2Proof.Machine
end

section
/-! PROOFS. The branch that is not taken (42_branch.md R171): EX drives no redirect, so ID and IF go on. -/

namespace Sys2Proof.Machine

theorem idOut_ifid_empty {s : State} (hf : s.ifid = .empty) : idOut s none false = .ok .empty := by
  simp [idOut, hf]

/-- Settles O25: EX drives no redirect and the comparator no stall, so ID decodes what IF/ID holds and IF fetches
at `pc`. -/
theorem notTakenBranchCostsNothing : Obligations.NotTakenBranchCostsNothing := by
  intro s rs rt off c pc a b hi hc hclean hidc hd ha hb hab
  obtain ⟨⟨dmem, memwb⟩, hm⟩ := memOut_clean.mp hclean
  have hx : exOut s = .ok (.full ⟨.branchOutcome false (pc + off), c, pc⟩) := by
    rw [exOut_beq hd ha hb, beq_eq_false_iff_ne.mpr hab]
  have hs := stallSignal_beq hi hd
  obtain ⟨idex, hid⟩ : ∃ idex, idOut s none false = .ok idex := idOut_of_idClean hx hs hidc
  have hr := runs_running hc
  refine ⟨_, step_ok hc hm hx hs hid, hr, rfl, fun f i hf hdec => ?_, fun hf => ?_,
    fun hin => Prod.ext_iff.mp (fetchAt_inside hin), fun hout => Prod.ext_iff.mp (fetchAt_outside hout)⟩
  · exact Except.ok.inj (hid.symm.trans (idOut_legal hf hdec))
  · exact Except.ok.inj (hid.symm.trans (idOut_ifid_empty hf))

end Sys2Proof.Machine
end

section
/-! PROOFS. Fatal errors (60_exceptions.md R200 to R206): which stage raises which error, what the aborted cycle
leaves, and how the error stands to the order of `Seq`. -/

namespace Sys2Proof.Machine

/-! ## Which stage raises which error (R200, R202) -/

/-- An LW or SW outside the extent is refused by MEM (R181, R183). -/
theorem memOut_outside {s : State} {e : Executed} {addr : Word} (he : s.exmem = .full e)
    (haccess : (∃ dest, e.result = .loadAddr dest addr) ∨ ∃ src data, e.result = .storeAddr addr src data)
    (hout : s.inExtent addr = false) : memOut s = .error (.addressError addr e.pc) := by
  obtain ⟨dest, hres⟩ | ⟨src, data, hres⟩ := haccess <;> simp [memOut, he, memAccess, hres, hout]

/-- MEM raises no FormatError. -/
theorem memOut_error_ne_formatError {s : State} {err : FatalError} (hm : memOut s = .error err) (w pc : Word) :
    err ≠ .formatError w pc := by
  cases he : s.exmem with
  | empty => simp [memOut, he] at hm
  | full e =>
    cases ha : memAccess s e with
    | ok p => simp [memOut, he, ha] at hm
    | error err' =>
      obtain ⟨a, rfl, -⟩ := memAccess_error ha
      obtain rfl : .addressError a e.pc = err := by simpa [memOut, he, ha] using hm
      exact FatalError.noConfusion

/-- With no redirect and no stall, ID refuses an illegal word. -/
theorem idOut_illegal {s : State} {f : Fetched} {why : IllegalReason} (hf : s.ifid = .full f)
    (hdec : decode f.word = .illegal why) : idOut s none false = .error (.formatError f.word f.pc) := by
  simp [idOut, hf, hdec]

/-- ID raises nothing but the FormatError of the illegal word it decodes. -/
theorem idOut_error {s : State} {redirect : Option Word} {stall : Bool} {err : FatalError}
    (h : idOut s redirect stall = .error err) :
    redirect = none ∧ ∃ f why, s.ifid = .full f ∧ decode f.word = .illegal why ∧
      err = .formatError f.word f.pc := by
  obtain ⟨hk, -⟩ | ⟨hred, -, f, hf, ⟨why, hdec, hk⟩ | ⟨i, -, hk⟩⟩ := idOut_cases s redirect stall <;>
    cases hk.symm.trans h
  exact ⟨hred, f, why, hf, hdec, rfl⟩

/-- A running cycle that ends in ERROR was aborted by MEM, or by ID at an illegal word (R203). -/
theorem step_error_cases {s t : State} {err : FatalError} (hc : s.runsCycle = true) (ht : step s = .next t)
    (hte : t.status = .error err) :
    (memOut s = .error err ∧ t = abort err (s.cycle + 1#64) s (wbStage s)) ∨
    (∃ dmem memwb exmem f why, memOut s = .ok (dmem, memwb) ∧ exOut s = .ok exmem ∧
      redirectOf exmem = none ∧ s.ifid = .full f ∧ decode f.word = .illegal why ∧
      err = .formatError f.word f.pc) := by
  rw [step_runs hc] at ht
  obtain ⟨e, hm, rfl⟩ | ⟨dmem, memwb, exmem, stall, hm, hx, -, ⟨e, hid, rfl⟩ | ⟨idex, -, rfl⟩⟩ :=
    runStages_cases ht
  · cases hte
    exact .inl ⟨hm, rfl⟩
  · cases hte
    obtain ⟨hred, f, why, hf, hdec, rfl⟩ := idOut_error hid
    exact .inr ⟨dmem, memwb, exmem, f, why, hm, hx, hred, hf, hdec, rfl⟩
  · rw [cycleDone_status, runs_running hc] at hte
    cases hte

/-! ## The aborted cycle (R203) -/

/-- Settles O34: MEM, EX and the comparator answer, and ID aborts the cycle after MEM's store. -/
theorem formatErrorAborts : Obligations.FormatErrorAborts := by
  intro s f why hi hc hclean hdn hdec
  obtain ⟨-, hdmem, -⟩ := inv_iff.mp hi
  obtain ⟨hwf, -⟩ := Bool.and_eq_true_iff.mp hdmem
  obtain ⟨dmem, memwb, exmem, b, hm, hx, hs⟩ := stages_answer hi hclean
  obtain ⟨hred, rfl, hf⟩ := (decodesNext_full hx hs).mp hdn
  have hid : idOut s (redirectOf exmem) false = .error (.formatError f.word f.pc) := by
    rw [hred]; exact idOut_illegal hf hdec
  refine ⟨_, step_idError hc hm hx hs hid, rfl, rfl, rfl, rfl, rfl, rfl, rfl, rfl, read_memOut hwf hm⟩

/-- Settles O35: MEM aborts the cycle before EX and ID are evaluated, and before it stores. -/
theorem addressErrorAborts : Obligations.AddressErrorAborts := by
  intro s e addr hc he haccess hout
  have hm := memOut_outside he haccess (inExtent_false_iff.mpr hout)
  exact ⟨_, step_memError hc hm, rfl, rfl, rfl, rfl, rfl, rfl, rfl, rfl, wbStage_dmem s⟩

/-! ## No InternalInvariant (R206) -/

/-- Settles O48, by the stage that ends the cycle: where MEM raises nothing, EX and the comparator answer, and ID
breaches nothing. -/
theorem invariantStateAlwaysSteps : Obligations.InvariantStateAlwaysSteps := by
  intro s hi
  cases hc : s.runsCycle with
  | false => exact ⟨_, step_idle hc⟩
  | true =>
    cases hm : memOut s with
    | error err => exact ⟨_, step_memError hc hm⟩
    | ok p =>
      obtain ⟨dmem, memwb, exmem, b, hm, hx, hs⟩ := stages_answer hi (memOut_clean.mpr ⟨p, hm⟩)
      cases hid : idOut s (redirectOf exmem) b with
      | error err => exact ⟨_, step_idError hc hm hx hs hid⟩
      | ok idex => exact ⟨_, step_ok hc hm hx hs hid⟩

/-! ## Errors in program order (R205) -/

/-- Behind an AddressError in MEM, the instruction in ID/EX does not begin. -/
theorem archView_eq_afterMem {s : State} (h : s.afterMem.status ≠ .running) : s.archView = s.afterMem := by
  unfold State.archView
  cases s.idex with
  | empty => rfl
  | full d => exact runAt_stopped d.instr d.pc h

/-- With an AddressError in MEM, the registers and the memory of what the pipeline stands for are those after
WB. -/
theorem archView_data_of_memOut_error {s : State} {err : FatalError} (hm : memOut s = .error err) :
    s.archView.x = (wbStage s).x ∧ s.archView.dmem = (wbStage s).dmem := by
  have hview := afterMem_error hm
  rw [archView_eq_afterMem (by simp [hview]), hview]
  exact ⟨rfl, rfl⟩

/-- Settles O52: only MEM raises an AddressError, and the cycle it aborts has written what WB has. -/
theorem addressErrorIsPrecise : Obligations.AddressErrorIsPrecise := by
  intro s t a pc _ hc ht hte
  obtain ⟨hm, rfl⟩ | ⟨_, _, _, _, _, -, -, -, -, -, herr⟩ := step_error_cases hc ht hte
  · obtain ⟨hx, hdmem⟩ := archView_data_of_memOut_error hm
    exact ⟨archView_of_memOut_error hm, hx.symm, hdmem.symm⟩
  · cases herr

/-- Where what the pipeline stands for is about to run the word in IF/ID and that word is illegal, `Seq` stops in
its FormatError. -/
theorem seqStep_archView_illegal {s : State} {f : Fetched} {why : IllegalReason} (hi : s.inv = true)
    (hf : s.ifid = .full f) (hdec : decode f.word = .illegal why) (hav : s.archView.status = .running)
    (hpc : s.archView.pc = f.pc) :
    ∃ u, seqStep s.archView = .next u ∧ u.status = .error (.formatError f.word f.pc) := by
  obtain ⟨-, -, hif, -⟩ := inv_iff.mp hi
  obtain ⟨hhas, hword, -⟩ := ifidOk_full hif hf
  have hh : s.archView.hasInstr s.archView.pc = true := by
    rw [hpc, State.hasInstr, archView_launch]; exact hhas
  have hw : s.archView.progWord s.archView.pc = f.word := by
    rw [hpc, hword, State.progWord, archView_launch]; rfl
  refine ⟨_, seqStep_illegal hav hh (hw ▸ hdec), ?_⟩
  rw [abort_status, hw, hpc]

/-- Settles O53: ID decodes the instruction at the front of the pipeline, which `Seq` runs next unless the
instruction before it, in ID/EX, has stopped it. -/
theorem formatErrorOrder : Obligations.FormatErrorOrder := by
  intro s t w pc hi hc ht hte
  obtain ⟨hm, -⟩ | ⟨dmem, memwb, exmem, f, why, hm, hx, hred, hf, hdec, herr⟩ := step_error_cases hc ht hte
  · exact absurd rfl (memOut_error_ne_formatError hm w pc)
  · cases herr
    have hfront : s.frontIndex = f.pc := by simp only [State.frontIndex, hf]
    obtain ⟨hav, hpc⟩ | ⟨a, d, hd, hav⟩ := archView_front hi (runs_running hc) hm hx hred
    · exact .inl ⟨hav, seqStep_archView_illegal hi hf hdec hav (hpc.trans hfront)⟩
    · obtain ⟨-, -, -, hid, -⟩ := inv_iff.mp hi
      obtain ⟨-, -, -, hnext⟩ := idexOk_full hid hd
      exact .inr ⟨a, d, hav, hd, hfront.symm.trans hnext⟩

/-! ## Error outputs (R201, R204) -/

/-- Settles O36, by the status: each output names its value for each of the four. -/
theorem errorCodesAndInformation : Obligations.ErrorCodesAndInformation := by
  intro s w a pc
  refine ⟨fun h => ?_, fun h => ?_, fun h => ?_, ?_, fun e h => ?_⟩
  · simp only [errKind, errWord, errPc, errAddr, h, and_self]
  · simp only [errKind, errAddr, errPc, errWord, h, and_self]
  · obtain h | h := h <;> simp only [errKind, errorReport, h, and_self]
  · unfold errKind
    split <;> decide
  · simp only [errorReport, h]

end Sys2Proof.Machine
end

section
/-! PROOFS. The first cycle after reset (70_reset_and_hazards.md R232) and the cycle count of a run that ends in
DONE (R236): each cycle takes one off the cycles that remain, and the completion cycle is not counted. -/

namespace Sys2Proof.Machine

/-! ## The first cycle (R232) -/

/-- Right after reset all latches are EMPTY, so a cycle runs exactly if there is an instruction at index 0. -/
theorem runsCycle_resetOf (l : Launch) :
    (State.resetOf l).runsCycle = (State.resetOf l).hasInstr 0#32 := by
  simp [State.runsCycle, completes]

/-- Settles O43: with an instruction at index 0 the cycle runs, every stage but IF is idle and IF fetches at `pc`;
without one the run is complete. -/
theorem firstCycleFetchesIndexZero : Obligations.FirstCycleFetchesIndexZero := by
  intro l
  constructor
  · intro hN
    have hin : (0#32 : Word).toNat < (State.resetOf l).launch.progLen := hN
    have hc : (State.resetOf l).runsCycle = true := (runsCycle_resetOf l).trans (hasInstr_iff.mpr hin)
    have hfetch : ifOut (State.resetOf l) (redirectOf .empty) false = (.full ⟨l.prog.read 0, 0#32⟩, 1#32) :=
      fetchAt_inside hin
    refine ⟨_, step_ok hc (stall := false) rfl rfl rfl rfl, rfl, ?_, rfl, ?_, rfl⟩
    · rw [cycleDone_ifid, hfetch]
    · rw [cycleDone_pc, hfetch]
  · intro hN
    exact completionOnlySetsDone _ rfl rfl rfl rfl rfl rfl (by simp [hN])

/-! ## `Seq` halts where the pipeline does (R140) -/

theorem EndsAlike.seq_done {u v : State} (h : EndsAlike u v) (hu : u.status = .done) :
    v.status = .done ∧ u.x = v.x ∧ u.dmem = v.dmem := by
  obtain ⟨-, hv, hx, hd⟩ | ⟨e, e', -, he', -⟩ := h
  · exact ⟨hv, hx, hd⟩
  · rw [hu] at he'; cases he'

/-- Where the run ends in DONE, `Seq` from what the pipeline stands for halts with the same registers and memory. -/
theorem live_seqHalts {s u : State} (h : Live s) {n : Nat} (hn : ReachesIn n s u) (hu : u.status = .done) :
    ∃ m v, seqRun m s.archView = .next v ∧ v.status = .done ∧ u.x = v.x ∧ u.dmem = v.dmem := by
  induction n generalizing s with
  | zero =>
    cases reaches_zero.mp hn
    rw [h.running] at hu; cases hu
  | succ n ih =>
    obtain ⟨t, ht, hrest⟩ := reaches_succ.mp hn
    obtain ⟨t', ht', -, ⟨hstop, v, hv, halike⟩ | ⟨hlive, hnext⟩⟩ := live_step h <;> cases ht.symm.trans ht'
    · cases reaches_stopped hstop hrest
      exact ⟨1, v, seqRun_succ.mpr ⟨v, hv, rfl⟩, halike.seq_done hu⟩
    · obtain ⟨m, v, hm, hend⟩ := ih hlive hrest
      obtain ⟨-, hseq⟩ | ⟨hsame, -⟩ := hnext
      · exact ⟨m + 1, v, seqRun_succ.mpr ⟨_, hseq, hm⟩, hend⟩
      · exact ⟨m, v, hsame ▸ hm, hend⟩

/-! ## The cycles a run takes (R236) -/

/-- A cycle that runs does not set DONE. -/
theorem runStages_ne_done {s t : State} (hr : s.status = .running) (h : runStages s = .next t) :
    t.status ≠ .done := by
  obtain ⟨_, -, rfl⟩ | ⟨_, _, _, _, -, -, -, ⟨_, -, rfl⟩ | ⟨_, -, rfl⟩⟩ := runStages_cases h <;> simp [hr]

/-- Nothing remains of a run that is complete: `Seq` is at the end of the program and nothing is in flight. -/
theorem remaining_of_completes {s v : State} {k : Nat} (hc : completes s = true)
    (hrun : ExecRun k s.archView v) : remaining s k = 0 := by
  simp only [completes, Bool.and_eq_true, beq_iff_eq, Bool.not_eq_true'] at hc
  obtain ⟨⟨⟨⟨hif, hid⟩, hex⟩, hmw⟩, hpc⟩ := hc
  have hm : memOut s = .ok (s.dmem, .empty) := by simp only [memOut, hex]
  have hfront : s.archView.pc = s.pc := by
    rw [archView_pc_front hm hid, State.frontIndex, hif]
  have hend : s.archView.hasInstr s.archView.pc = false := by
    rw [hfront, State.hasInstr, archView_launch]; exact hpc
  have hk : k = 0 := by simpa [hend] using hrun.has
  subst hk
  simp only [remaining, extraCycles, idleCycles, hid, hex, hmw, if_true]

/-- A run that ends in DONE takes the cycles that remain. -/
theorem live_cycles {s u v : State} (h : Live s) {n : Nat} (hn : ReachesIn n s u) (hu : u.status = .done)
    {k : Nat} (hrun : ExecRun k s.archView v) : u.cycle = s.cycle + BitVec.ofNat 64 (remaining s k) := by
  induction n generalizing s k with
  | zero =>
    cases reaches_zero.mp hn
    rw [h.running] at hu; cases hu
  | succ n ih =>
    obtain ⟨t, ht, hrest⟩ := reaches_succ.mp hn
    obtain ⟨t', ht', -, ⟨hstop, -⟩ | ⟨hlive, -⟩⟩ := live_step h <;> cases ht.symm.trans ht'
    · cases reaches_stopped hstop hrest
      have hc : s.runsCycle = false := by
        by_contra hc
        exact runStages_ne_done h.running (step_runs (by simpa using hc) ▸ ht) hu
      have hcomp : completes s = true := by simpa [State.runsCycle, h.running, h.rst] using hc
      rw [step_idle_cycle hc ht, remaining_of_completes hcomp hrun]
      simp
    · have hc : s.runsCycle = true := by
        by_contra hc
        exact idle_not_running (by simpa using hc) ht h.rst hlive.running
      obtain ⟨k', hrun', hrem⟩ := remaining_step h.inv hc hrun ht hlive.running
      rw [ih hlive hrest hrun', runStages_cycle (step_runs hc ▸ ht), hrem, Nat.add_comm, BitVec.ofNat_add,
        BitVec.add_assoc]

/-- What remains right after reset is the count of R236: the first fetch and the drain cost 4 if there is an
instruction at all. -/
theorem remaining_resetOf {l : Launch} {k : Nat} {v : State} (hrun : ExecRun k (State.resetOf l) v) :
    remaining (State.resetOf l) k = (seqTally k (State.resetOf l) Tally.start).cycles := by
  obtain ⟨hE, hST⟩ := seqTally_counts hrun Tally.start
  simp only [Tally.start, Nat.zero_add] at hE hST
  have hrem : remaining (State.resetOf l) k =
      k + extraCycles k (State.resetOf l) none + (if k = 0 then 0 else 4) := by
    simp [remaining, archView_resetOf, lastOf, idleCycles]
  rw [hrem, Tally.cycles, Tally.start, hE]
  by_cases hk : k = 0
  · simp [hk, extraCycles]
  · simp only [hk, if_false]
    omega

/-- Settles O57: `Seq` halts as the pipeline does, and its run is one of executed instructions, which the count
goes along. -/
theorem cycleCountOfACompletedRun : Obligations.CycleCountOfACompletedRun := by
  rintro l u hl ⟨n, hn, hu⟩
  have hlive := live_resetOf hl
  obtain ⟨m, v, hseq, hv, hx, hd⟩ := live_seqHalts hlive hn hu
  rw [archView_resetOf] at hseq
  obtain ⟨k, w, hrun, -, htally⟩ := execRun_of_halts hseq rfl hv
  refine ⟨m, v, hseq, hv, hx, hd, ?_⟩
  rw [live_cycles hlive hn hu (archView_resetOf l ▸ hrun), remaining_resetOf hrun, htally, resetOf_cycle,
    BitVec.zero_add]

end Sys2Proof.Machine
end

section
/-! PROOFS. The invariant (10_state.md section 5): it holds after reset, every step keeps it, and in its states the
multiplexers give the operands in program order (40_pipeline.md R126, R233). -/

namespace Sys2Proof.Machine

/-! ## Every step keeps the invariant -/

/-- An abort leaves the latches, `pc` and the launch as they were, so the invariant stands if the memory MEM left
and the error recorded are as it wants them (R203). -/
theorem abort_inv {s now : State} {err : FatalError} {c : CycleCount} (hi : s.inv = true)
    (hdmem : (Memory.wf now.dmem && Memory.within now.dmem s.launch.memWords) = true)
    (hst : statusOk (abort err c s now) = true) : (abort err c s now).inv = true := by
  obtain ⟨hl, -, hif, hid, hex, hmw, -⟩ := inv_iff.mp hi
  exact inv_iff.mpr ⟨hl, hdmem, hif, hid, hex, hmw, hst⟩

/-- What MEM raises is an AddressError outside the extent (R202). -/
theorem memOut_error {s : State} {err : FatalError} (hm : memOut s = .error err) :
    ∃ a pc, err = .addressError a pc ∧ s.inExtent a = false := by
  cases he : s.exmem with
  | empty => simp [memOut, he] at hm
  | full e =>
    cases ha : memAccess s e with
    | ok p => simp [memOut, he, ha] at hm
    | error err' =>
      obtain ⟨a, rfl, hout, -⟩ := memAccess_error ha
      exact ⟨a, e.pc, by simpa [memOut, he, ha] using hm.symm, hout⟩

theorem memError_inv {s : State} {err : FatalError} (c : CycleCount) (hi : s.inv = true)
    (hm : memOut s = .error err) : (abort err c s (wbStage s)).inv = true := by
  obtain ⟨-, hdmem, -⟩ := inv_iff.mp hi
  obtain ⟨a, pc, rfl, hout⟩ := memOut_error hm
  refine abort_inv hi ?_ ?_
  · rw [wbStage_dmem]; exact hdmem
  · simp [statusOk, hout]

theorem idError_inv {s : State} {err : FatalError} {dmem : Memory} {memwb : Latch MemDone}
    {redirect : Option Word} {stall : Bool} (c : CycleCount) (hi : s.inv = true)
    (hm : memOut s = .ok (dmem, memwb)) (hid : idOut s redirect stall = .error err) :
    (abort err c s { wbStage s with dmem := dmem }).inv = true := by
  obtain ⟨-, hdmem, -⟩ := inv_iff.mp hi
  obtain ⟨-, f, why, -, hdec, rfl⟩ := idOut_error hid
  exact abort_inv hi (memOut_dmem hm hdmem) (by simp [statusOk, decode?, hdec])

/-- The completion cycle: DONE is set in a drained pipeline at the end of the program (R112). -/
theorem done_inv {s : State} (hi : s.inv = true) (hc : completes s = true) :
    ({ s with status := .done } : State).inv = true := by
  obtain ⟨hl, hdmem, hif, hid, hex, hmw, -⟩ := inv_iff.mp hi
  exact inv_iff.mpr ⟨hl, hdmem, hif, hid, hex, hmw, hc⟩

/-- Settles O47, by what the step was: it waits, completes the run, is aborted by MEM or by ID, or runs a whole
cycle. -/
theorem stepKeepsTheInvariant : Obligations.StepKeepsTheInvariant := by
  intro s t hi ht
  cases hc : s.runsCycle with
  | false =>
    rw [step_idle hc] at ht
    cases ht
    split
    · rename_i h
      obtain ⟨hrst, hr⟩ := h
      exact done_inv hi (by simpa [State.runsCycle, hrst, hr] using hc)
    · exact hi
  | true =>
    rw [step_runs hc] at ht
    obtain ⟨err, hm, rfl⟩ | ⟨dmem, memwb, exmem, stall, hm, hx, hs, ⟨err, hid, rfl⟩ | ⟨idex, hid, rfl⟩⟩ :=
      runStages_cases ht
    · exact memError_inv _ hi hm
    · exact idError_inv _ hi hm hid
    · exact cycleDone_inv hi (runs_running hc) hm hx hs hid

/-! ## The invariant after reset -/

/-- Settles O46: `State.reset` is the reset state of the launch in which nothing was loaded, which is well formed. -/
theorem invariantHoldsAfterReset : Obligations.InvariantHoldsAfterReset := by
  have hunloaded : Launch.unloaded.wf = true := by decide
  exact ⟨fun l hl => inv_resetOf hl, by rw [reset_eq_resetOf]; exact inv_resetOf hunloaded⟩

/-! ## Operands in program order -/

/-- What MEM/WB offers for a register is what the register holds after WB. -/
theorem wbOffer_getD_wbStage (s : State) (r : RegIdx) :
    (wbOffer s r).getD (readReg (wbStage s).x r) = readReg (wbStage s).x r := by
  rw [wb_read]
  cases wbOffer s r <;> rfl

/-- Settles O18, by whether EX/MEM offers the register: if it does not, the value is the one after WB. -/
theorem forwardedOperandIsTheProgramOrderValue : Obligations.ForwardedOperandIsTheProgramOrderValue := by
  intro s d r hi hd hr hclean
  obtain ⟨-, -, -, -, hex, hmw, -⟩ := inv_iff.mp hi
  have hload := interlock_src hex hd hr
  rw [fwd_ok _ hex hmw hload, older_read hclean hload]
  cases exOffer s r with
  | some v => rfl
  | none => exact congrArg _ (wbOffer_getD_wbStage s r)

end Sys2Proof.Machine
end

section
/-! PROOFS. The decoder on words written out bit by bit (95_test_vectors.md V7 to V12). -/

namespace Sys2Proof

/-- Settles O4: the decoder computes on each word. -/
theorem writtenOutWordsDecode : Obligations.WrittenOutWordsDecode := by
  unfold Obligations.WrittenOutWordsDecode
  decide

end Sys2Proof
end

section
/-! PROOFS. Each instruction on its own (41_arithmetic.md, 42_branch.md, 43_load_store.md): what it writes and what
it leaves unchanged. -/

namespace Sys2Proof.Machine

/-- Registers, memory and `pc` are all that an instruction without an error writes. -/
theorem sameContext_of_data (s : State) (x : RegFile) (dmem : Memory) (pc : Word) :
    sameContext s { s with x := x, dmem := dmem, pc := pc } :=
  ⟨rfl, rfl, rfl, rfl, rfl, rfl, rfl, rfl⟩

/-- Settles O9: both write one register through the write-back port. -/
theorem addAndSubWriteTheirDestination : Obligations.AddAndSubWriteTheirDestination := by
  intro rd rs rt s
  exact ⟨⟨_, exec_add rd rs rt s, fun r => readReg_writePort .., rfl, fun _ => rfl, sameContext_of_data s ..⟩,
    ⟨_, exec_sub rd rs rt s, fun r => readReg_writePort .., rfl, fun _ => rfl, sameContext_of_data s ..⟩⟩

/-- Settles O11: BEQ writes `pc` alone. -/
theorem beqChoosesTheNextIndex : Obligations.BeqChoosesTheNextIndex := by
  intro rs rt off s
  refine ⟨_, exec_beq rs rt off s, ?_, fun _ => rfl, fun _ => rfl, sameContext_of_data s ..⟩
  simp only [beq_iff_eq]

/-- Settles O12: in the extent LW writes one register, with the word MEM reads. -/
theorem lwLoadsTheWord : Obligations.LwLoadsTheWord := by
  intro rt off rs s ha
  exact ⟨_, exec_lw (inExtent_iff.mpr ha), fun r => readReg_writePort .., rfl, fun _ => rfl,
    sameContext_of_data s ..⟩

/-- Settles O13: in the extent SW writes one word of a canonical memory. -/
theorem swStoresTheWord : Obligations.SwStoresTheWord := by
  intro rt off rs s hm ha
  exact ⟨_, exec_sw (inExtent_iff.mpr ha), fun a => Memory.read_write hm .., fun _ => rfl, rfl,
    sameContext_of_data s ..⟩

/-- An instruction whose MEM part is refused leaves everything but the status as it was (R181, R183). -/
theorem exec_of_memAccess_error {i : Instr} {s : State} {err : FatalError}
    (h : memAccess s ⟨exOf i s.pc (readReg s.x), ctrlOf i, s.pc⟩ = .error err) :
    exec i s = .next { s with status := .error err } := by
  rw [exec_finish, finish_error h]
  rfl

/-- Settles O14: MEM refuses the access of either instruction. -/
theorem outOfExtentAccessIsAnAddressError : Obligations.OutOfExtentAccessIsAnAddressError := by
  intro rt off rs s hout
  have hext : s.inExtent (readReg s.x rs + off) = false := inExtent_false_iff.mpr hout
  constructor
  · exact exec_of_memAccess_error (by simp [memAccess, exOf, exLw, effAddr, hext])
  · exact exec_of_memAccess_error (by simp [memAccess, exOf, exSw, effAddr, hext])

end Sys2Proof.Machine
end

section
/-! PROOFS. One instruction in an otherwise EMPTY pipeline (70_reset_and_hazards.md R232, R235): fetched, decoded,
executed and finished with nothing older in flight. -/

namespace Sys2Proof.Machine

/-- A cycle runs while a latch holds a payload or there is an instruction at `pc` (R112). -/
theorem runsCycle_of_busy {s : State} (hrst : s.rst = false) (hr : s.status = .running)
    (h : s.ifid ≠ .empty ∨ s.idex ≠ .empty ∨ s.exmem ≠ .empty ∨ s.memwb ≠ .empty ∨ s.hasInstr s.pc = true) :
    s.runsCycle = true := by
  have hcomp : completes s = false := by
    rw [← Bool.not_eq_true]
    intro hcomp
    simp only [completes, Bool.and_eq_true, beq_iff_eq, Bool.not_eq_true'] at hcomp
    simp [hcomp] at h
  simp [State.runsCycle, hrst, hr, hcomp]

theorem memOut_exmem_empty {s : State} (h : s.exmem = .empty) : memOut s = .ok (s.dmem, .empty) := by
  simp only [memOut, h]

theorem memOut_of_ok {s : State} {e : Executed} {dmem : Memory} {m : MemDone} (he : s.exmem = .full e)
    (ha : memAccess s e = .ok (dmem, m)) : memOut s = .ok (dmem, .full m) := by
  simp only [memOut, he, ha]

theorem memOut_of_error {s : State} {e : Executed} {err : FatalError} (he : s.exmem = .full e)
    (ha : memAccess s e = .error err) : memOut s = .error err := by
  simp only [memOut, he, ha]

theorem exOut_idex_empty {s : State} (h : s.idex = .empty) : exOut s = .ok .empty := by
  simp only [exOut, h]

theorem wbStage_x_of_memwb_empty {s : State} (h : s.memwb = .empty) : (wbStage s).x = s.x := by
  simp only [wbStage_x, h]

/-! ## The five cycles -/

/-- A cycle with nothing past IF/ID but MEM/WB: ID takes what IF/ID holds, IF fetches at `pc`. -/
theorem step_front {s : State} (hc : s.runsCycle = true) (hid : s.idex = .empty) (hex : s.exmem = .empty)
    {idex : Latch Decoded} (h : idOut s none false = .ok idex) :
    step s = .next (cycleDone s s.dmem .empty .empty idex (fetchAt s s.pc)) :=
  step_ok hc (memOut_exmem_empty hex) (exOut_idex_empty hid) (stallSignal_idex_empty hid) h

/-- With nothing in EX/MEM and MEM/WB the multiplexers give plain register reads (R126). -/
theorem fwd_of_empty {s : State} (hex : s.exmem = .empty) (hmw : s.memwb = .empty) (x : RegFile) (r : RegIdx) :
    fwd s x r = .ok (readReg x r) := by
  simp only [fwd, forward, forwardExMem, forwardMemWb, hex, hmw]
  rfl

/-- EX with nothing older in flight. -/
theorem exOut_alone {s : State} (hex : s.exmem = .empty) (hmw : s.memwb = .empty) {d : Decoded}
    (hd : s.idex = .full d) :
    exOut s = .ok (.full ⟨exOf d.instr d.pc (readReg s.x), d.ctrl, d.pc⟩) := by
  simp only [exOut, hd, wbStage_x_of_memwb_empty hmw, exResult_eq fun r _ => fwd_of_empty hex hmw s.x r]

/-- The EX cycle of an instruction with nothing before or behind it: IF fetches the next one. -/
theorem step_execute {s : State} (hc : s.runsCycle = true) (hif : s.ifid = .empty) (hex : s.exmem = .empty)
    (hmw : s.memwb = .empty) {d : Decoded} (hd : s.idex = .full d) (hpc : s.pc = d.pc + 1#32) :
    step s = .next (cycleDone s s.dmem .empty (.full ⟨exOf d.instr d.pc (readReg s.x), d.ctrl, d.pc⟩) .empty
      (fetchAt s (nextIndex (exOf d.instr d.pc (readReg s.x)) d.pc))) := by
  have hid : idOut s (redirectOf (.full ⟨exOf d.instr d.pc (readReg s.x), d.ctrl, d.pc⟩)) false = .ok .empty := by
    simp only [idOut, hif]
    split <;> rfl
  rw [step_ok hc (memOut_exmem_empty hex) (exOut_alone hex hmw hd) (stallSignal_ifid_empty hif) hid,
    nextIndex_redirect _ d.ctrl d.pc, ← hpc]
  rfl

/-! ## The fetch -/

/-- Fetching with nothing older in IF/ID, ID/EX or EX/MEM (R121). -/
theorem step_fetch {s : State} (hrst : s.rst = false) (hr : s.status = .running) (hif : s.ifid = .empty)
    (hid : s.idex = .empty) (hex : s.exmem = .empty) (hpc : s.hasInstr s.pc = true) :
    step s = .next (cycleDone s s.dmem .empty .empty .empty (.full ⟨s.progWord s.pc, s.pc⟩, s.pc + 1#32)) := by
  rw [step_front (runsCycle_of_busy hrst hr (.inr (.inr (.inr (.inr hpc))))) hid hex (idOut_ifid_empty hif),
    fetchAt_inside (hasInstr_iff.mp hpc)]

/-- The step after a load of a program word answers the state in which the word is fetched. -/
theorem step_withProgramWord (s : State) (nbits w : Nat) :
    step (s.withProgramWord nbits w) = .next (s.withFetchWord nbits w) := by
  have hpc : (s.withProgramWord nbits w).hasInstr s.pc = true := hasInstr_iff.mpr (by simp)
  rw [State.withFetchWord, step_fetch rfl rfl rfl rfl rfl hpc]

/-- The state in which the placed word is fetched has nothing older before MEM/WB. -/
theorem withFetchWord_latches {s : State} {w : Nat} (hwf : Memory.wf s.launch.prog = true) (hw : w < 2 ^ 32) :
    (s.withFetchWord 32 w).rst = false ∧ (s.withFetchWord 32 w).status = .running ∧
      (s.withFetchWord 32 w).ifid = .full ⟨BitVec.ofNat 32 w, s.pc⟩ ∧ (s.withFetchWord 32 w).idex = .empty ∧
      (s.withFetchWord 32 w).exmem = .empty := by
  rw [withFetchWord_eq hwf, Nat.mod_eq_of_lt hw]
  exact ⟨rfl, rfl, rfl, rfl, rfl⟩

/-- Settles O44: the placed word is what PROGRAM holds at `pc`. -/
theorem nextFetchWordIsFetched : Obligations.NextFetchWordIsFetched := by
  intro s w hwf hw
  obtain ⟨-, hr, hif, hid, -⟩ := withFetchWord_latches hwf hw
  refine ⟨_, step_withProgramWord s 32 w, hr, hif, hid, ?_⟩
  rw [withFetchWord_eq hwf]
  exact ⟨rfl, rfl⟩

/-! ## The placed word -/

/-- A word in IF/ID with nothing older before MEM/WB: its decoding takes what the pipeline stands for on by `exec`
(R140). -/
theorem archView_decode {s : State} (hr : s.status = .running) {f : Fetched} (hf : s.ifid = .full f)
    (hid : s.idex = .empty) (hex : s.exmem = .empty) (i : Instr) (fetch : Latch Fetched × Word) :
    s.archView.pc = f.pc ∧ exec i s.archView =
      .next (cycleDone s s.dmem .empty .empty (.full ⟨i, ctrlOf i, f.pc⟩) fetch).archView := by
  have hview : s.archView = base s .empty s.dmem f.pc := by
    simp only [archView_eq (memOut_exmem_empty hex) hr, hid, State.frontIndex, hf]
  rw [hview]
  refine ⟨rfl, ?_⟩
  rw [exec_finish, archView_eq (s := cycleDone ..) (memOut_exmem_empty rfl) hr]
  rfl

/-! ## Runs in which no error can be raised -/

/-- Every run from a state of the invariant stays in it. -/
theorem inv_reaches {n : Nat} {s t : State} (hi : s.inv = true) (h : ReachesIn n s t) : t.inv = true := by
  induction n generalizing s with
  | zero => exact reaches_zero.mp h ▸ hi
  | succ n ih =>
    obtain ⟨u, hu, hrest⟩ := reaches_succ.mp h
    exact ih (stepKeepsTheInvariant s u hi hu) hrest

/-- Neither R200 nor R202 has an occasion: every program word is legal and every address is in the extent. -/
structure ErrorFree (l : Launch) : Prop where
  legal : ∀ k : Word, k.toNat < l.progLen → ∃ i, decode (l.prog.read k.toNat) = .legal i
  extent : ∀ a : Word, a.toNat < l.memWords

theorem ErrorFree.memClean {s : State} (h : ErrorFree s.launch) : memClean s = true := by
  have hext (a : Word) : s.inExtent a = true := inExtent_iff.mpr (h.extent a)
  unfold Machine.memClean
  split
  · rfl
  · split
    · exact hext _
    · exact hext _
    · rfl
    · rfl

theorem ErrorFree.idClean {s : State} (h : ErrorFree s.launch) (hi : s.inv = true) {exmem : Latch Executed}
    {b : Bool} (hx : exOut s = .ok exmem) (hs : stallSignal s = .ok b) : idClean s = true := by
  cases hn : decodesNext s with
  | empty => simp only [Machine.idClean, hn]
  | full f =>
    obtain ⟨-, -, hif, -⟩ := inv_iff.mp hi
    obtain ⟨-, -, hf⟩ := (decodesNext_full hx hs).mp hn
    obtain ⟨hhas, hword, -⟩ := ifidOk_full hif hf
    obtain ⟨i, hdec⟩ := h.legal f.pc (hasInstr_iff.mp hhas)
    have hlegal : decode f.word = .legal i := hword ▸ hdec
    simp [Machine.idClean, hn, decode?, hlegal]

/-- In such a run a cycle raises nothing. -/
theorem ErrorFree.step {s : State} (h : ErrorFree s.launch) (hi : s.inv = true) (hc : s.runsCycle = true) :
    ∃ t, step s = .next t ∧ t.status = .running := by
  obtain ⟨dmem, memwb, exmem, b, hm, hx, hs⟩ := stages_answer hi h.memClean
  obtain ⟨idex, hid⟩ := idOut_of_idClean hx hs (h.idClean hi hx hs)
  have hr := runs_running hc
  exact ⟨_, step_ok hc hm hx hs hid, hr⟩

/-! ## The instruction alone, as far as EX -/

/-- Out of reset, RUNNING, with nothing in flight, and the word of `i` at `pc` is the only one to fetch. -/
structure Alone (s : State) (i : Instr) : Prop where
  rst : s.rst = false
  running : s.status = .running
  ifid : s.ifid = .empty
  idex : s.idex = .empty
  exmem : s.exmem = .empty
  memwb : s.memwb = .empty
  here : s.hasInstr s.pc = true
  word : decode (s.progWord s.pc) = .legal i
  last : s.hasInstr (s.pc + 1#32) = false

/-- What EX makes of `i` at `pc` with plain register reads. -/
def resultAt (s : State) (i : Instr) : Executed := ⟨exOf i s.pc (readReg s.x), ctrlOf i, s.pc⟩

/-- The index after `i` at `pc`. -/
def indexAfter (s : State) (i : Instr) : Word := nextIndex (exOf i s.pc (readReg s.x)) s.pc

theorem exec_eq_resultAt (i : Instr) (s : State) :
    exec i s = .next (finish (resultAt s i) (indexAfter s i) s) := exec_finish i s

/-- `s` a cycle later: the word at `pc` is in IF/ID. -/
def fetched (s : State) : State :=
  { s with ifid := .full ⟨s.progWord s.pc, s.pc⟩, pc := s.pc + 1#32, cycle := s.cycle + 1#64 }

/-- `s` two cycles later: `i` is in ID/EX. -/
def decoded (s : State) (i : Instr) : State :=
  { s with idex := .full ⟨i, ctrlOf i, s.pc⟩, pc := s.pc + 1#32, cycle := s.cycle + 2#64 }

/-- `s` three cycles later: `i` is in EX/MEM and IF has fetched at the index after it. -/
def executed (s : State) (i : Instr) : State :=
  { s with
    ifid := (fetchAt s (indexAfter s i)).1, exmem := .full (resultAt s i)
    pc := (fetchAt s (indexAfter s i)).2, cycle := s.cycle + 3#64 }

section

variable {s : State} {i : Instr} (h : Alone s i)

include h

theorem Alone.step_fetched : step s = .next (fetched s) := by
  rw [step_fetch h.rst h.running h.ifid h.idex h.exmem h.here]
  simp [cycleDone, fetched, wbStage_x, h.idex, h.exmem, h.memwb]

theorem Alone.step_decoded : step (fetched s) = .next (decoded s i) := by
  have hlast : fetchAt (fetched s) (fetched s).pc = (.empty, s.pc + 1#32) :=
    fetchAt_outside (hasInstr_false_iff.mp h.last)
  have hc : (fetched s).runsCycle = true := runsCycle_of_busy h.rst h.running (.inl nofun)
  rw [step_front hc h.idex h.exmem (idOut_legal rfl h.word), hlast]
  simp [cycleDone, decoded, fetched, wbStage_x, h.ifid, h.exmem, h.memwb, BitVec.add_assoc]

theorem Alone.step_executed : step (decoded s i) = .next (executed s i) := by
  have hc : (decoded s i).runsCycle = true := runsCycle_of_busy h.rst h.running (.inr (.inl nofun))
  have hstep : step (decoded s i) = .next (cycleDone (decoded s i) s.dmem .empty (.full (resultAt s i)) .empty
      (fetchAt s (indexAfter s i))) := step_execute hc h.ifid h.exmem h.memwb rfl rfl
  rw [hstep]
  simp [cycleDone, decoded, executed, wbStage_x, h.idex, h.memwb, BitVec.add_assoc]

theorem Alone.reaches_executed : ReachesIn 3 s (executed s i) :=
  reaches_succ.mpr ⟨_, h.step_fetched, reaches_succ.mpr ⟨_, h.step_decoded,
    reaches_succ.mpr ⟨_, h.step_executed, reaches_zero.mpr rfl⟩⟩⟩

end

/-! ## MEM and WB -/

/-- MEM with nothing in ID/EX: EX/MEM moves on to MEM/WB. -/
theorem memory_cycle {s t : State} {e : Executed} (hc : s.runsCycle = true) (hid : s.idex = .empty)
    (he : s.exmem = .full e) (ht : step s = .next t) (htr : t.status = .running) :
    ∃ m, memAccess s e = .ok (t.dmem, m) ∧ t.x = (wbStage s).x ∧ t.exmem = .empty ∧ t.memwb = .full m := by
  obtain ⟨dmem, memwb, exmem, stall, idex, hm, hx, -, -, rfl⟩ := step_ok_cases hc ht htr
  cases (exOut_idex_empty hid).symm.trans hx
  obtain ⟨hno, -⟩ | ⟨e', m, he', rfl, ha⟩ := memOut_latch hm
  · rw [he] at hno; cases hno
  · cases he.symm.trans he'
    exact ⟨m, ha, rfl, rfl, rfl⟩

/-- WB with nothing in EX/MEM: the data memory stays. -/
theorem writeBack_cycle {s t : State} {m : MemDone} (hc : s.runsCycle = true) (hex : s.exmem = .empty)
    (hmw : s.memwb = .full m) (ht : step s = .next t) (htr : t.status = .running) :
    t.x = writeBack s.x m.result ∧ t.dmem = s.dmem := by
  obtain ⟨dmem, memwb, exmem, stall, idex, hm, -, -, -, rfl⟩ := step_ok_cases hc ht htr
  cases (memOut_exmem_empty hex).symm.trans hm
  exact ⟨by simp only [cycleDone_x, wbStage_x, hmw], rfl⟩

/-- MEM answers from the data memory and the size of the extent alone. -/
theorem memAccess_congr_extent {s t : State} (e : Executed) (hd : t.dmem = s.dmem)
    (hw : t.launch.memWords = s.launch.memWords) : memAccess t e = memAccess s e := by
  obtain ⟨result, ctrl, pc⟩ := e
  cases result <;> simp [memAccess, memRead, memWrite, State.inExtent, hd, hw]

/-- What an instruction on its own leaves in the registers and the data memory depends on no other part of the
state but the size of the extent. -/
theorem finish_data_congr {s t : State} (e : Executed) (next : Word) (hx : t.x = s.x) (hd : t.dmem = s.dmem)
    (hw : t.launch.memWords = s.launch.memWords) :
    (finish e next t).x = (finish e next s).x ∧ (finish e next t).dmem = (finish e next s).dmem := by
  have hmem := memAccess_congr_extent e hd hw
  obtain ⟨dmem, m, ha, hs⟩ | ⟨err, ha, hs⟩ := finish_cases e next s
  · rw [hs, finish_ok (hmem.trans ha), hx]
    exact ⟨rfl, rfl⟩
  · rw [hs, finish_error (hmem.trans ha)]
    exact ⟨hx, hd⟩

/-! ## The instruction alone, to its end -/

/-- Where nothing can raise an error, the instruction has written what `exec` writes after five cycles, whatever
IF fetches behind it. -/
theorem Alone.reaches_written {s : State} {i : Instr} (h : Alone s i) (hi : s.inv = true)
    (hfree : ErrorFree s.launch) :
    ∃ u, ReachesIn 5 s u ∧ u.status = .running ∧ u.x = (finish (resultAt s i) (indexAfter s i) s).x ∧
      u.dmem = (finish (resultAt s i) (indexAfter s i) s).dmem := by
  have h3 := h.reaches_executed
  have hi3 := inv_reaches hi h3
  have hc3 : (executed s i).runsCycle = true := runsCycle_of_busy h.rst h.running (.inr (.inr (.inl nofun)))
  obtain ⟨t, ht, htr⟩ := ErrorFree.step (s := executed s i) hfree hi3 hc3
  obtain ⟨m, ha, hx, hex, hmw⟩ := memory_cycle hc3 h.idex rfl ht htr
  obtain ⟨hl, hrst⟩ := step_launch ht
  have hfree4 : ErrorFree t.launch := hl ▸ hfree
  have hi4 := stepKeepsTheInvariant _ _ hi3 ht
  have hc4 := runsCycle_of_busy (hrst.trans h.rst) htr (by simp [hmw])
  obtain ⟨u, hu, hur⟩ := hfree4.step hi4 hc4
  obtain ⟨hux, hud⟩ := writeBack_cycle hc4 hex hmw hu hur
  have ha' : memAccess s (resultAt s i) = .ok (t.dmem, m) := (memAccess_congr _ rfl rfl).symm.trans ha
  have hx4 : t.x = s.x := hx.trans (wbStage_x_of_memwb_empty h.memwb)
  refine ⟨u, reaches_snoc.mpr ⟨t, reaches_snoc.mpr ⟨_, h3, ht⟩, hu⟩, hur, ?_, ?_⟩
  · rw [finish_ok ha', hux, hx4]
  · rw [finish_ok ha', hud]

/-- `s` four cycles later, where no instruction follows: `i` is in MEM/WB. -/
def stored (s : State) (i : Instr) (dmem : Memory) (m : MemDone) : State :=
  { s with dmem := dmem, memwb := .full m, pc := indexAfter s i, cycle := s.cycle + 4#64 }

section

variable {s : State} {i : Instr} (h : Alone s i)

include h

theorem Alone.step_stored {dmem : Memory} {m : MemDone} (ha : memAccess s (resultAt s i) = .ok (dmem, m))
    (hend : s.hasInstr (indexAfter s i) = false) : step (executed s i) = .next (stored s i dmem m) := by
  have hempty : fetchAt s (indexAfter s i) = (.empty, indexAfter s i) :=
    fetchAt_outside (hasInstr_false_iff.mp hend)
  have hif : (executed s i).ifid = .empty := congrArg Prod.fst hempty
  have hpc : (executed s i).pc = indexAfter s i := congrArg Prod.snd hempty
  have hc : (executed s i).runsCycle = true := runsCycle_of_busy h.rst h.running (.inr (.inr (.inl nofun)))
  have hm : memOut (executed s i) = .ok (dmem, .full m) :=
    memOut_of_ok rfl ((memAccess_congr _ rfl rfl).trans ha)
  have hfetch : ifOut (executed s i) (redirectOf .empty) false = (.empty, indexAfter s i) :=
    (congrArg (fetchAt s) hpc).trans hempty
  rw [step_ok hc hm (exOut_idex_empty h.idex) (stallSignal_idex_empty h.idex) (idOut_ifid_empty hif), hfetch]
  simp [cycleDone, stored, executed, wbStage_x, h.ifid, h.idex, h.exmem, h.memwb, BitVec.add_assoc]

theorem Alone.step_finish {dmem : Memory} {m : MemDone} (ha : memAccess s (resultAt s i) = .ok (dmem, m))
    (hend : s.hasInstr (indexAfter s i) = false) :
    step (stored s i dmem m) =
      .next { finish (resultAt s i) (indexAfter s i) s with cycle := s.cycle + 5#64 } := by
  have hempty : fetchAt (stored s i dmem m) (stored s i dmem m).pc = (.empty, indexAfter s i) :=
    fetchAt_outside (hasInstr_false_iff.mp hend)
  have hc : (stored s i dmem m).runsCycle = true :=
    runsCycle_of_busy h.rst h.running (.inr (.inr (.inr (.inl nofun))))
  rw [step_front hc h.idex h.exmem (idOut_ifid_empty h.ifid), hempty, finish_ok ha]
  simp [cycleDone, stored, wbStage_x, h.ifid, h.idex, h.exmem, h.memwb, BitVec.add_assoc]

/-- The five cycles of an instruction that raises nothing and has no instruction after it. -/
theorem Alone.reaches_finish {dmem : Memory} {m : MemDone} (ha : memAccess s (resultAt s i) = .ok (dmem, m))
    (hend : s.hasInstr (indexAfter s i) = false) :
    ReachesIn 5 s { finish (resultAt s i) (indexAfter s i) s with cycle := s.cycle + 5#64 } :=
  reaches_snoc.mpr ⟨_, reaches_snoc.mpr ⟨_, h.reaches_executed, h.step_stored ha hend⟩, h.step_finish ha hend⟩

/-- An AddressError of the instruction comes in its MEM, the fourth cycle, and nothing is written. -/
theorem Alone.reaches_abort {err : FatalError} (ha : memAccess s (resultAt s i) = .error err) :
    ReachesIn 4 s (abort err (s.cycle + 4#64) (executed s i) s) := by
  have hc : (executed s i).runsCycle = true := runsCycle_of_busy h.rst h.running (.inr (.inr (.inl nofun)))
  have hm : memOut (executed s i) = .error err := memOut_of_error rfl ((memAccess_congr _ rfl rfl).trans ha)
  refine reaches_snoc.mpr ⟨_, h.reaches_executed, ?_⟩
  rw [step_memError hc hm]
  simp [abort, executed, wbStage_x, h.memwb, BitVec.add_assoc]

end

/-! ## The placed word on `State.reset` -/

section

variable {w : Nat} {i : Instr} (hw : w < 2 ^ 32) (hdec : decode (BitVec.ofNat 32 w) = .legal i)

/-- The placed word is the whole program. -/
theorem read_placed : (State.reset.withProgramWord 32 w).launch.prog.read 0 = BitVec.ofNat 32 (w % 2 ^ 32) :=
  Memory.read_write_same rfl 0 _

/-- The launch of `State.reset` with one word loaded is well formed. -/
theorem inv_placed (w : Nat) : (State.reset.withProgramWord 32 w).inv = true := by
  have hprog : Memory.wf (State.reset.withProgramWord 32 w).launch.prog = true := Memory.wf_write rfl _ _
  have hl : (State.reset.withProgramWord 32 w).launch.wf = true := by
    simp only [Launch.wf, Bool.and_eq_true]
    exact ⟨⟨⟨rfl, rfl⟩, hprog⟩, rfl⟩
  exact inv_resetOf (l := (State.reset.withProgramWord 32 w).launch) hl

include hw hdec

theorem decode_placed : decode ((State.reset.withProgramWord 32 w).launch.prog.read 0) = .legal i := by
  rw [read_placed, Nat.mod_eq_of_lt hw, hdec]

theorem alone_placed : Alone (State.reset.withProgramWord 32 w) i :=
  ⟨rfl, rfl, rfl, rfl, rfl, rfl, rfl, decode_placed hw hdec, rfl⟩

theorem errorFree_placed : ErrorFree (State.reset.withProgramWord 32 w).launch := by
  refine ⟨fun k hk => ⟨i, ?_⟩, fun a => a.isLt⟩
  have hk0 : k.toNat = 0 := Nat.lt_one_iff.mp hk
  rw [hk0, decode_placed hw hdec]

/-- On `State.reset` the placed word of `i` leaves the registers and the data memory of `exec i` (R235). -/
theorem placed_runs_on_reset :
    ∃ t u, exec i State.reset = .next t ∧ ReachesIn 4 (State.reset.withFetchWord 32 w) u ∧
      u.status = .running ∧ u.x = t.x ∧ u.dmem = t.dmem := by
  have hinv : (State.reset.withProgramWord 32 w).inv = true := inv_placed w
  obtain ⟨u, hu, hur, hx, hd⟩ :=
    (alone_placed hw hdec).reaches_written hinv (errorFree_placed hw hdec)
  obtain ⟨v, hv, hrest⟩ := reaches_succ.mp hu
  cases (step_withProgramWord State.reset 32 w).symm.trans hv
  obtain ⟨hxr, hdr⟩ := finish_data_congr (s := State.reset) (t := State.reset.withProgramWord 32 w)
    (resultAt State.reset i) (indexAfter State.reset i) rfl rfl rfl
  exact ⟨_, u, exec_eq_resultAt i State.reset, hrest, hur, hx.trans hxr, hd.trans hdr⟩

end

/-- Settles O45: the state of `withFetchWord` holds the word in IF/ID with nothing older in flight, so ID decodes or
refuses it; and on `State.reset` it is the whole program and no address lies outside the extent. -/
theorem placedWordRunsAtTheNextStep : Obligations.PlacedWordRunsAtTheNextStep := by
  refine ⟨fun s w i hwf hw hdec => ?_, fun s w why hwf hw hdec => ?_,
    fun w i hw hdec => placed_runs_on_reset hw hdec⟩
  · obtain ⟨hrst, hr, hf, hid, hex⟩ := withFetchWord_latches hwf hw
    have hc := runsCycle_of_busy hrst hr (by simp [hf])
    obtain ⟨hpc, hexec⟩ := archView_decode hr hf hid hex i _
    exact ⟨hpc, _, step_front hc hid hex (idOut_legal hf hdec), hr, rfl, hexec⟩
  · obtain ⟨hrst, hr, hf, hid, hex⟩ := withFetchWord_latches hwf hw
    have hc := runsCycle_of_busy hrst hr (by simp [hf])
    exact ⟨_, step_idError hc (memOut_exmem_empty hex) (exOut_idex_empty hid) (stallSignal_idex_empty hid)
      (idOut_illegal hf hdec), rfl⟩

/-- Settles O49, by whether MEM answers the instruction or refuses it. -/
theorem drainedCoreRunsTheDecodedInstruction : Obligations.DrainedCoreRunsTheDecodedInstruction := by
  intro s t i hrst hr hif hid hex hmw hhere hdec hlast ht
  have h : Alone s i := ⟨hrst, hr, hif, hid, hex, hmw, hhere, hdec, hlast⟩
  rw [exec_eq_resultAt] at ht
  cases ht
  obtain ⟨dmem, m, ha, hfin⟩ | ⟨err, ha, hfin⟩ := finish_cases (resultAt s i) (indexAfter s i) s
  · refine ⟨fun _ hend => ?_, fun e he => ?_⟩
    · rw [hfin] at hend
      exact h.reaches_finish ha hend
    · rw [hfin] at he
      cases hr.symm.trans he
  · refine ⟨fun hrun => ?_, fun e he => ?_⟩
    · rw [hfin] at hrun
      cases hrun
    · rw [hfin] at he ⊢
      cases he
      exact ⟨_, h.reaches_abort ha, rfl, rfl, rfl, rfl⟩

end Sys2Proof.Machine
end
